-- ==== Sys2Proof/Word.lean ====
section
/-! DEFINITION. Word.lean: the bit widths of the block CORE (rules R5, R6, R8, R46). Bit 0 is the least significant bit
of every value and `v[i]` of the spec is `v.getLsbD i` (R8). -/

namespace Sys2Proof

/-- An operand or a result: 32 bits, two's complement (R6; the parameter `W` of R5). -/
abbrev Word := BitVec 32

/-- The operation-select field `op` (the parameter `OPW` of R5; R46). -/
abbrev Op := BitVec 2

/-- The written command word `CMDW = op ∥ a ∥ b` (R48). -/
abbrev CmdWord := BitVec 66

/-- `MIN_INT32` (R5, R54). -/
def minInt32 : Word := 0x80000000#32

/-- `MAX_INT32` (R5, R54). -/
def maxInt32 : Word := 0x7FFFFFFF#32

end Sys2Proof
end

