-- ==== Sys2Proof/Config.lean ====
section
/-! DEFINITION. Config.lean: what an implementation fixes (R5) and the free values that stand for every
"unspecified" of the spec (R22, R28, R33, R106; U2, U3). -/

namespace Sys2Proof

/-- `W_WIDE`, the width of the divider's intermediate registers (R5, D13, U8): the spec's value, the default of the
argument that the whole machine takes (`State w`, `stepAt`). Assumption 8. -/
abbrev Config.wWide : Nat := 64

/-- The least `W_WIDE` the spec admits (R5, R76). -/
def Config.wWideMin : Nat := 34

/-- `N_INST`, the default number of instances in a system (R5, D23, U9). Machine/System.lean takes any number. -/
def Config.nInst : Nat := 1

/-- A register of the divider of width `W_WIDE` (R17, R27). -/
abbrev Wide := BitVec Config.wWide

/-- The 32-bit registers that a reset or an accepting step leaves unspecified (R22, R33). -/
inductive OpenWord where
  | res | xa | xb | sa
  deriving DecidableEq, Repr

/-- The wide registers that a reset leaves unspecified (R33). -/
inductive OpenWide where
  | rem | dvs | tmp | mul | quo
  deriving DecidableEq, Repr

/-- FREE VALUE: what a 32-bit register holds after the spec's `<- unspecified` (R22, R106; U2, U3), one unknown value
for each register, each instance (the first number) and each draw (the second). No body: nothing can be proved of it.
Assumptions 1 and 21. -/
opaque Config.freeWord : OpenWord → Nat → Nat → Word

/-- FREE VALUE: what a wide register of width `w` holds after `<- unspecified` (R106; U3), as `Config.freeWord`.
Assumptions 1 and 21. -/
opaque Config.freeWide (w : Nat) : OpenWide → Nat → Nat → BitVec w

/-- FREE VALUE: what `NEG` holds after `<- unspecified` (R106; U3), as `Config.freeWord`. Assumptions 1 and 21. -/
opaque Config.freeNeg : Nat → Nat → Bool

end Sys2Proof
end

