-- ==== Sys2Proof/Syntax.lean ====
section
/-! DEFINITION. Syntax.lean: the commands of the block (R2, R46, R47), one constructor of Instr per row of
spec/opcode_table.json, and the outcome of a command (R11). -/

namespace Sys2Proof

/-- A command of the block (R46): an operation and its two 32-bit operands, each any bit pattern (R36, R49). -/
inductive Instr where
  /-- `ADD a, b` (R56): LAB07's `add(a, b)`. -/
  | add (a b : Word)
  /-- `DIV a, b` (R66): LAB07's `divide(dividend = a, divisor = b)`. -/
  | div (a b : Word)
  /-- `SUB a, b` (R83): LAB07's `subtract(a, b)`. -/
  | sub (a b : Word)
  deriving DecidableEq, Repr

/-- The raw triple the three command ports carry (R46, R37), before it is known that `op` names an operation. -/
structure Command where
  op : Op
  a : Word
  b : Word
  deriving DecidableEq, Repr

/-- The outcome of a command (R11). `err` is a proper final outcome, not a fault of the model (R100). -/
inductive CmdOutcome where
  /-- `Ok(v)`. -/
  | ok (v : Word)
  /-- `Err(DivisionByZero)`, the one error kind (R92). -/
  | divisionByZero
  deriving DecidableEq, Repr

/-- The three mnemonics of the written syntax (R54). -/
inductive Mnemonic where
  | add | div | sub
  deriving DecidableEq, Repr

end Sys2Proof
end

