-- ==== Sys2Proof/WellFormed.lean ====
section
/-! DEFINITION. WellFormed.lean: which raw triples, written words and commands are legal (R36, R47, R48, R51, R52). -/

namespace Sys2Proof

/-- A raw triple is a legal command iff its `op` is not the reserved `0b11` (R51, R52, R113). -/
def Command.wellFormed (c : Command) : Bool := c.op != 0b11#2

/-- A number is a written command word iff it has no bit above bit 65 (R48). -/
def fitsCmdWord (w : Nat) : Bool := w < 2 ^ 66

/-- A written word is a legal command word iff it fits and its top two bits are not the reserved `0b11` (R48, R51). -/
def legalCmdWord (w : Nat) : Bool := fitsCmdWord w && w / 2 ^ 64 != 3

/-- Every operand pattern of every command is legal (R36, R49, R52), so each constructor's check passes. -/
def Instr.wellFormed : Instr → Bool
  | .add _ _ => true
  | .div _ _ => true
  | .sub _ _ => true

end Sys2Proof
end

