-- ==== Sys2Proof/Decode.lean ====
section
/-! DEFINITION. Decode.lean: the command encoding (R46 to R53), the decoder, the encoder, and the written
syntax (R54). -/

namespace Sys2Proof

/-- `op` of `ADD` (R47). -/
def opAdd : Op := 0b00#2

/-- `op` of `DIV` (R47). -/
def opDiv : Op := 0b01#2

/-- `op` of `SUB` (R47). -/
def opSub : Op := 0b10#2

/-- Why a word or a triple is no command. -/
inductive DecodeError where
  /-- `op == 0b11` (R51): the spec gives no operation, and a model refuses the accepting step. Safe. -/
  | reservedOp
  /-- The number has bits above bit 65, so it is no `CMDW` at all (R48, R53). Safe. -/
  | tooWide
  deriving DecidableEq, Repr

/-- What the decoder answers. -/
inductive Decoded where
  | command (i : Instr)
  | rejected (why : DecodeError)
  deriving DecidableEq, Repr

/-- The command a raw triple stands for (R47, R49): `op` selects, `a` and `b` are taken unchanged. -/
def decodeCommand (c : Command) : Decoded :=
  if c.op = opAdd then .command (.add c.a c.b)
  else if c.op = opDiv then .command (.div c.a c.b)
  else if c.op = opSub then .command (.sub c.a c.b)
  else .rejected .reservedOp

/-- The fields of `CMDW` (R46): `op` in bits 65:64, `a` in bits 63:32, `b` in bits 31:0. -/
def unpack (w : CmdWord) : Command where
  op := w.extractLsb' 64 2
  a := w.extractLsb' 32 32
  b := w.extractLsb' 0 32

/-- The command a written command word stands for (R48). -/
def decode (w : CmdWord) : Decoded := decodeCommand (unpack w)

/-- The decoder on any number: one with a bit above bit 65 is rejected (R48, R53). -/
def decodeNat (w : Nat) : Decoded :=
  if fitsCmdWord w then decode (BitVec.ofNat 66 w) else .rejected .tooWide

/-- The triple the host drives for a command (R46, R47). -/
def Instr.toCommand : Instr → Command
  | .add a b => ⟨opAdd, a, b⟩
  | .div a b => ⟨opDiv, a, b⟩
  | .sub a b => ⟨opSub, a, b⟩

/-- `CMDW = op ∥ a ∥ b` (R48). -/
def pack (c : Command) : CmdWord := c.op ++ (c.a ++ c.b)

/-- The written command word of a command (R48, R54). -/
def encode (i : Instr) : CmdWord := pack i.toCommand

/-- The decoder on a row of spec/opcode_table.json, whose bit numbers are those of `CMDW` (R48); the bits from
`nbits` on are 0. Assumption 17. -/
def decodeTableWord (nbits w : Nat) : Option Instr :=
  match decodeNat (w % 2 ^ nbits) with
  | .command i => some i
  | .rejected _ => none

/-- The 17 hexadecimal digits `CMDW` is written with, `op` first (R48). -/
def CmdWord.digits (w : CmdWord) : List Nat :=
  (List.range 17).map fun k => w.toNat / 16 ^ (16 - k) % 16

/-- The mnemonic of a command (R47, R54). -/
def Instr.mnemonic : Instr → Mnemonic
  | .add _ _ => .add
  | .div _ _ => .div
  | .sub _ _ => .sub

/-- The pattern of an integer literal (R54): `n` itself, and `2^32 - n` for a negative literal `-n`. A literal that
is no 32-bit value, signed or unsigned, is none. Assumption 14. -/
def literal (n : Int) : Option Word :=
  if -(2 ^ 31) ≤ n ∧ n < 2 ^ 32 then some (BitVec.ofInt 32 n) else none

/-- The command the written form `MNEMONIC x, y` stands for (R54), the mnemonic and the two literals already read. -/
def assemble (m : Mnemonic) (x y : Int) : Option Instr :=
  match literal x, literal y with
  | some a, some b =>
    match m with
    | .add => some (.add a b)
    | .div => some (.div a b)
    | .sub => some (.sub a b)
  | _, _ => none

end Sys2Proof
end

