-- ==== Sys2Proof/Machine/State.lean ====
section
/-! DEFINITION. State.lean: the complete state of one instance of the block (R17), the input ports the host drives
(R15), why a step can stop, and the state after reset (R33). The block has no memory (R34), no register file (R18),
no program counter (R19), no control register (R25) and no hidden state beyond the registers (R30). -/

namespace Sys2Proof.Machine

/-- The sequencer register `PHASE`: exactly eight values (R20), their encoding not observable (R19, U6). -/
inductive Phase where
  /-- Reset done, no command accepted since. -/
  | idle
  /-- `ADD`: the adder loop is running. -/
  | addRun
  /-- `SUB`: the adder loop is forming `(~b) + 1`. -/
  | subNeg
  /-- `SUB`: the adder loop is forming `a + negated_b`. -/
  | subRun
  /-- `DIV`: is the remaining dividend still at least the absolute divisor? -/
  | divOuter
  /-- `DIV`: shifting the divisor, then subtracting and accumulating. -/
  | divShift
  /-- `DIV`: negate and narrow. -/
  | divFin
  /-- The last accepted command has ended; its outcome is on the ports. -/
  | done
  deriving DecidableEq, Repr

/-- The divider's registers at width `w` (R17, R27): `NEG` is 1 bit, the other five are `W_WIDE` bits, signed. -/
structure DivRegs (w : Nat) where
  /-- `NEG`, LAB07's `isNegative`. -/
  neg : Bool
  /-- `REM`, the remaining absolute dividend. -/
  rem : BitVec w
  /-- `DVS`, the absolute divisor. -/
  dvs : BitVec w
  /-- `TMP`, the shifted divisor. -/
  tmp : BitVec w
  /-- `MUL`, the power of two that goes with `TMP`. -/
  mul : BitVec w
  /-- `QUO`, the accumulated result. -/
  quo : BitVec w
  deriving DecidableEq, Repr

/-- The values on the input ports (R15), less `clk`: one step of the model is one active edge of `clk` (R14). -/
structure PortIn where
  /-- Synchronous reset, active at 1. -/
  rst : Bool
  /-- Command request, a level. -/
  start : Bool
  /-- Operation select. -/
  op : Op
  /-- First operand. -/
  a : Word
  /-- Second operand. -/
  b : Word
  deriving DecidableEq, Repr

/-- The input ports with every line at 0. -/
def PortIn.quiet : PortIn := ⟨false, false, 0, 0, 0⟩

/-- The state of one instance (R17) whose divider is `w` bits wide, the argument `W_WIDE` of R5: `State` without an
argument has the spec's value 64 (assumption 8). Beside the registers stand the host's side of the ports (R14, R15) and
what numbers the free values, which are the model's own fields (assumptions 3, 4 and 21). -/
structure State (w : Nat := Config.wWide) where
  /-- `PHASE`, the sequencer register (R20). -/
  phase : Phase
  /-- `ERR`, the one status flag (R24). -/
  err : Bool
  /-- `RES`, the result register (R28). -/
  res : Word
  /-- `XA`, the partial sum (R26). -/
  xa : Word
  /-- `XB`, the carry mask (R26). -/
  xb : Word
  /-- `SA`, the kept `a` of `SUB` (R26). -/
  sa : Word
  /-- `NEG`, `REM`, `DVS`, `TMP`, `MUL`, `QUO` (R27). -/
  div : DivRegs w
  /-- MODEL'S OWN: the values the host has on the input ports now, sampled by the next step (R15). -/
  ports : PortIn
  /-- MODEL'S OWN: the values the host will drive after the coming steps, one for each, oldest first (R14). -/
  host : List PortIn
  /-- MODEL'S OWN: the number of this instance in its system, which no step writes and which sets its free values apart
  from those of the other instances. -/
  inst : Nat
  /-- MODEL'S OWN: the number of the next free value. -/
  draws : Nat
  deriving DecidableEq, Repr

/-- Reasons for the machine to stop with a fault: NONE. The block has no fault: its one error is an outcome, shown in
a proper `DONE` state (R92, R96, R100), and no register is ever unreadable. Nothing raises one. Assumption 20. -/
inductive Fault where
  deriving DecidableEq, Repr

/-- Reasons for a step to be refused. -/
inductive Refusal where
  /-- Raised by an arm of exec whose instruction has no meaning yet. Safe. No arm raises it in this model. -/
  | notModelled (mnemonic : String)
  /-- Raised by an accepting step with `op == 0b11` (R51, R113, U1): the spec gives it no successor. Safe. -/
  | reservedOp
  deriving DecidableEq, Repr

/-- The divider's registers after `<- unspecified`, for instance `k` at draw `n` (R33, R106, U3). -/
def freeDiv {w : Nat} (k n : Nat) : DivRegs w where
  neg := Config.freeNeg k n
  rem := Config.freeWide w .rem k n
  dvs := Config.freeWide w .dvs k n
  tmp := Config.freeWide w .tmp k n
  mul := Config.freeWide w .mul k n
  quo := Config.freeWide w .quo k n

/-- The state of instance `k` after reset (R33): `PHASE = IDLE`, `ERR = 0`, and every other register at a free value of
its own, since the spec leaves it unspecified and says "never as zero" (assumptions 2 and 21). The host has every input
line at 0 and nothing to drive (assumption 5). -/
def State.resetOf {w : Nat} (k : Nat) : State w where
  phase := .idle
  err := false
  res := Config.freeWord .res k 0
  xa := Config.freeWord .xa k 0
  xb := Config.freeWord .xb k 0
  sa := Config.freeWord .sa k 0
  div := freeDiv k 0
  ports := PortIn.quiet
  host := []
  inst := k
  draws := 1

/-- The state after reset (R33) of the one instance of a system with `N_INST = 1` (R5). -/
def State.reset : State := State.resetOf 0

end Sys2Proof.Machine
end

