-- ==== Sys2Proof/Machine/Ops.lean ====
section
/-! DEFINITION. Ops.lean: the named operations on the registers that every command shares: dropping the previous
outcome, raising the one exception, ending a command with a value, and the reset action. There is no memory
operation, since the block has no memory (R34). All writes of one step take effect together and read the values
from before the step (R10): each operation is a function of the state before the step. -/

namespace Sys2Proof.Machine

variable {w : Nat}

/-- The first two writes of the accepting step (R22): `ERR <- 0`, `RES <- unspecified`. This is also all there is of a
"return" from the error: no command returns, the next accepting step drops it (R99, R24). -/
def dropOutcome (s : State w) : State w :=
  { s with
    err := false
    res := Config.freeWord .res s.inst s.draws
    draws := s.draws + 1 }

/-- `raise DivisionByZero` (R10, R93): `ERR <- 1`, `PHASE <- DONE`, and no other register. Nothing is saved, no
vector is taken, no mode or mask changes. -/
def raiseDivisionByZero (s : State w) : State w :=
  { s with
    err := true
    phase := .done }

/-- A step that ends a command with outcome `Ok(v)` (R28): `RES <- v`, `PHASE <- DONE`. -/
def finish (v : Word) (s : State w) : State w :=
  { s with
    res := v
    phase := .done }

/-- `PHASE <- p` (R10). -/
def enter (p : Phase) (s : State w) : State w :=
  { s with phase := p }

/-- Write the adder's registers: `(XA, XB) <- x` (R57). -/
def setAdder (x : Word × Word) (s : State w) : State w :=
  { s with
    xa := x.1
    xb := x.2 }

/-- Write the divider's registers (R27). -/
def setDiv (d : DivRegs w) (s : State w) : State w :=
  { s with div := d }

/-- The reset action (R106): `PHASE <- IDLE`, `ERR <- 0`, every other register `<- unspecified`. DESIGN CHOICE: the free
values depend on the instance and on the number of the draw alone, so two states that agree on `inst` and `draws` hold
equal contents after it (assumption 21). -/
def resetAction (s : State w) : State w :=
  { s with
    phase := .idle
    err := false
    res := Config.freeWord .res s.inst s.draws
    xa := Config.freeWord .xa s.inst s.draws
    xb := Config.freeWord .xb s.inst s.draws
    sa := Config.freeWord .sa s.inst s.draws
    div := freeDiv s.inst s.draws
    draws := s.draws + 1 }

end Sys2Proof.Machine
end

