-- ==== Sys2Proof/Machine/Operands.lean ====
section
/-! DEFINITION. Operands.lean: how a command's operands enter the block (R37, R49), are loaded into the adder (R57),
and are widened, made absolute and narrowed in the divider (R69, R70, R74). -/

namespace Sys2Proof.Machine

/-- The indivisible triple sampled in the accepting step (R22, R37). -/
def PortIn.command (i : PortIn) : Command := ⟨i.op, i.a, i.b⟩

/-- The ports of a host that requests a command (R115): `rst = 0`, `start = 1`, the command on `op`, `a`, `b`. -/
def PortIn.request (c : Command) : PortIn := ⟨false, true, c.op, c.a, c.b⟩

/-- `AdderLoad(x, y)` (R57), the two edge cases tested in this order. -/
def adderLoad (x y : Word) : Word × Word :=
  if y = 0 then (x, 0)
  else if x = 0 then (y, 0)
  else (x, y)

/-- The sign of the quotient, `a[31] ^ b[31]` (R69). -/
def quotientSign (a b : Word) : Bool := a.getLsbD 31 ^^ b.getLsbD 31

/-- `abs_N(v)` (R9): `v`, or `-v` at the same width if the top bit is set. -/
def absAt {w : Nat} (v : BitVec w) : BitVec w := if v.msb then -v else v

/-- `abs_WW(sext_WW(v))` (R70): widened first, then made absolute. -/
def absWide (w : Nat) (v : Word) : BitVec w := absAt (v.signExtend w)

/-- `low32(q)` (R9, R74): bits 31:0, nothing checked. -/
def low32 {w : Nat} (q : BitVec w) : Word := q.extractLsb' 0 32

end Sys2Proof.Machine
end

