-- ==== Sys2Proof/Machine/Flags.lean ====
section
/-! DEFINITION. Flags.lean: the one flag `ERR` (R24) and everything the host can read: the output ports (R16), the
`STATUS` view (R25), the outcome (R16) and the response word (R50). There is no carry, overflow, zero or negative
flag (R24). Each output is a function of the registers alone (R16). -/

namespace Sys2Proof.Machine

variable {w : Nat}

/-- Is the phase a working phase (R12, R20)? -/
def Phase.working : Phase → Bool
  | .idle => false
  | .addRun => true
  | .subNeg => true
  | .subRun => true
  | .divOuter => true
  | .divShift => true
  | .divFin => true
  | .done => false

/-- The port `busy` (R16). -/
def State.busy (s : State w) : Bool := s.phase.working

/-- The port `done` (R16). -/
def State.isDone (s : State w) : Bool := s.phase == .done

/-- The block is free: a request is sampled in this phase (R21, R104). -/
def State.free (s : State w) : Bool := !s.busy

/-- Is the port `result` specified now (R28, R112)? -/
def State.resultSpecified (s : State w) : Bool := s.isDone && !s.err

/-- The output ports (R16). `result` is the register `RES`, a free value while it is not specified. -/
structure PortOut where
  busy : Bool
  done : Bool
  err : Bool
  result : Word
  deriving DecidableEq, Repr

/-- The values on the output ports (R16). -/
def State.portOut (s : State w) : PortOut := ⟨s.busy, s.isDone, s.err, s.res⟩

/-- The value a host may use as `result` (R28, R97, R112): none at every time it is not specified. -/
def State.result? (s : State w) : Option Word := if s.resultSpecified then some s.res else none

/-- The outcome of the last accepted command, as read off the ports (R16): none while `done == 0`. -/
def State.outcome (s : State w) : Option CmdOutcome :=
  if s.isDone then
    if s.err then some .divisionByZero else some (.ok s.res)
  else none

/-- `STATUS = busy ∥ done ∥ err` (R25): bit 2, bit 1, bit 0. -/
def State.status (s : State w) : BitVec 3 :=
  BitVec.ofBool s.busy ++ (BitVec.ofBool s.isDone ++ BitVec.ofBool s.err)

/-- `RSPW = err ∥ result`, valid when `done == 1` (R50); with `err` its low 32 bits are the free value in `RES`. -/
def State.rspw (s : State w) : Option (BitVec 33) :=
  if s.isDone then some (BitVec.ofBool s.err ++ s.res) else none

end Sys2Proof.Machine
end

