-- ==== Sys2Proof/Machine/Adder.lean ====
section
/-! DEFINITION. Adder.lean: the unit bitwise_adder (R26, R57, R58) and the command `ADD` (R56, R59, R60). -/

namespace Sys2Proof.Machine

variable {w : Nat}

/-- `AdderIter` on the pair `(XA, XB)` (R58): `carry = XA & XB`, `XA <- XA ^ XB`, `XB <- carry << 1`. -/
def adderIter (xa xb : Word) : Word × Word :=
  let carry := xa &&& xb
  (xa ^^^ xb, carry <<< 1)

/-- `AddAccept(a, b)` (R59). -/
def addAccept (a b : Word) (s : State w) : State w :=
  enter .addRun (setAdder (adderLoad a b) s)

/-- `AddRunStep` (R60): the finish if `XB == 0`, else one iteration. -/
def addRunStep (s : State w) : State w :=
  if s.xb = 0 then finish s.xa s
  else setAdder (adderIter s.xa s.xb) s

/-- `ADD a, b` accepted (R22, R56, R59): the previous outcome is dropped, the adder is loaded, and the steps of phase
`ADD_RUN` carry the command to its end. -/
def execAdd (a b : Word) (s : State w) : Host.Outcome (State w) Fault Refusal :=
  .next (addAccept a b (dropOutcome s))

end Sys2Proof.Machine
end

