-- ==== Sys2Proof/Machine/Divider.lean ====
section
/-! DEFINITION. Divider.lean: the unit bitwise_divider (R27, R67 to R74, R77) and the command `DIV` (R66). The datapath
is written for every width `w`, the parameter `W_WIDE` (R5). -/

namespace Sys2Proof.Machine

/-- The loading of the divider in the accepting step (R68): `NEG`, `REM`, `DVS`, `QUO` are written, `TMP` and `MUL`
are not. -/
def DivRegs.load {w : Nat} (a b : Word) (d : DivRegs w) : DivRegs w :=
  { d with
    neg := quotientSign a b
    rem := absWide w a
    dvs := absWide w b
    quo := 0 }

/-- The loop test of R71, `REM >=s DVS`. -/
def DivRegs.another {w : Nat} (d : DivRegs w) : Bool := d.dvs.sle d.rem

/-- The start of a round (R71): `TMP <- DVS`, `MUL <- 1`. -/
def DivRegs.startRound {w : Nat} (d : DivRegs w) : DivRegs w :=
  { d with
    tmp := d.dvs
    mul := 1 }

/-- The shift test of R72, `(TMP << 1) <=s REM`: the next shift would not exceed the remaining dividend. -/
def DivRegs.shiftFits {w : Nat} (d : DivRegs w) : Bool := (d.tmp <<< 1).sle d.rem

/-- One shift (R72). -/
def DivRegs.shift {w : Nat} (d : DivRegs w) : DivRegs w :=
  { d with
    tmp := d.tmp <<< 1
    mul := d.mul <<< 1 }

/-- The subtract-and-accumulate (R72). -/
def DivRegs.subtract {w : Nat} (d : DivRegs w) : DivRegs w :=
  { d with
    rem := d.rem - d.tmp
    quo := d.quo + d.mul }

/-- The signed quotient of R73: `-QUO` if `NEG`, else `QUO`. -/
def DivRegs.signedQuotient {w : Nat} (d : DivRegs w) : BitVec w := if d.neg then -d.quo else d.quo

/-- One step of the divider's two loops (R71, R72) as a function of the phase and the divider's registers alone; any
other phase is left as it is. -/
def divLoopStep {w : Nat} : Phase × DivRegs w → Phase × DivRegs w
  | (.divOuter, d) => if d.another then (.divShift, d.startRound) else (.divFin, d)
  | (.divShift, d) => if d.shiftFits then (.divShift, d.shift) else (.divOuter, d.subtract)
  | (.idle, d) => (.idle, d)
  | (.addRun, d) => (.addRun, d)
  | (.subNeg, d) => (.subNeg, d)
  | (.subRun, d) => (.subRun, d)
  | (.divFin, d) => (.divFin, d)
  | (.done, d) => (.done, d)

/-- `DivAccept(a, b)` (R67, R68): the three tests in LAB07's order, then the loading. -/
def divAccept {w : Nat} (a b : Word) (s : State w) : State w :=
  if b = 0 then raiseDivisionByZero s
  else if a = 0 then finish 0 s
  else if b = 1 then finish a s
  else enter .divOuter (setDiv (s.div.load a b) s)

/-- `DivOuterStep` (R71). -/
def divOuterStep {w : Nat} (s : State w) : State w :=
  let x := divLoopStep (.divOuter, s.div)
  enter x.1 (setDiv x.2 s)

/-- `DivShiftStep` (R72). -/
def divShiftStep {w : Nat} (s : State w) : State w :=
  let x := divLoopStep (.divShift, s.div)
  enter x.1 (setDiv x.2 s)

/-- `DivFinStep` (R73, R74). -/
def divFinStep {w : Nat} (s : State w) : State w := finish (low32 s.div.signedQuotient) s

/-- `n` steps of the divider's loops. -/
def divLoop {w : Nat} : Nat → Phase × DivRegs w → Phase × DivRegs w
  | 0, x => x
  | n + 1, x => divLoop n (divLoopStep x)

/-- The quotient the divider's datapath of width `w` forms from registers `d` in the 530 steps that R78 bounds every
command by: what R76 compares between widths. The zero test of R67 is not part of it. -/
def divideAt (w : Nat) (d : DivRegs w) (a b : Word) : Word :=
  low32 (divLoop 530 (.divOuter, d.load a b)).2.signedQuotient

/-- `DIV a, b` accepted (R22, R66, R68): the previous outcome is dropped, then one of the three early outcomes, the
error among them, or the loading of the divider, which the steps of phases `DIV_OUTER`, `DIV_SHIFT` and `DIV_FIN`
carry to its end. -/
def execDiv {w : Nat} (a b : Word) (s : State w) : Host.Outcome (State w) Fault Refusal :=
  .next (divAccept a b (dropOutcome s))

end Sys2Proof.Machine
end

