-- ==== Sys2Proof/Machine/Subtractor.lean ====
section
/-! DEFINITION. Subtractor.lean: the unit bitwise_subtractor and the command `SUB` (R83 to R86): the adder's datapath,
run twice (R87). -/

namespace Sys2Proof.Machine

variable {w : Nat}

/-- `SubAccept(a, b)` (R84): `SA <- a`, `(XA, XB) <- AdderLoad(~b, 1)`. -/
def subAccept (a b : Word) (s : State w) : State w :=
  let t : State w := { s with sa := a }
  enter .subNeg (setAdder (adderLoad (~~~b) 1) t)

/-- `SubNegStep` (R85): the hand-over to the second pass if `XB == 0`, else one iteration. -/
def subNegStep (s : State w) : State w :=
  if s.xb = 0 then enter .subRun (setAdder (adderLoad s.sa s.xa) s)
  else setAdder (adderIter s.xa s.xb) s

/-- `SubRunStep` (R86): the finish if `XB == 0`, else one iteration. -/
def subRunStep (s : State w) : State w :=
  if s.xb = 0 then finish s.xa s
  else setAdder (adderIter s.xa s.xb) s

/-- `SUB a, b` accepted (R22, R83, R84): the previous outcome is dropped and the first adder pass is loaded; the steps
of phases `SUB_NEG` and `SUB_RUN` carry the command to its end. -/
def execSub (a b : Word) (s : State w) : Host.Outcome (State w) Fault Refusal :=
  .next (subAccept a b (dropOutcome s))

end Sys2Proof.Machine
end

