-- ==== Sys2Proof/Machine/Dispatch.lean ====
section
/-! DEFINITION. Dispatch.lean: the `case op of` of the accepting step (R22), one arm per command. -/

namespace Sys2Proof.Machine

/-- The accepting step of a legal command (R22): taken only when the block is free, `rst == 0` and `start == 1`. -/
def exec (i : Instr) (s : State) : Host.Outcome State Fault Refusal :=
  match i with
  | .add a b => Sys2Proof.Machine.execAdd a b s
  | .div a b => Sys2Proof.Machine.execDiv a b s
  | .sub a b => Sys2Proof.Machine.execSub a b s

end Sys2Proof.Machine
end

