-- ==== Sys2Proof/Machine/Sequencer.lean ====
section
/-! DEFINITION. Sequencer.lean: one clock edge of the block (R21 to R23), and what the host does to the ports between
two edges (R14, R115). -/

namespace Sys2Proof.Machine

variable {w : Nat}

/-- What carries out a command's accepting step: `exec` on the block, `execAt` at any width. -/
abbrev Dispatcher (w : Nat) := Instr → State w → Host.Outcome (State w) Fault Refusal

/-- The same three arms as `exec`, at any width of the divider (R5). -/
def execAt : Dispatcher w
  | .add a b, s => execAdd a b s
  | .div a b, s => execDiv a b s
  | .sub a b, s => execSub a b s

/-- The accepting step on the sampled ports (R22). The reserved `op` has no successor: it is refused (R51, U1). -/
def accept (dispatch : Dispatcher w) (i : PortIn) (s : State w) : Host.Outcome (State w) Fault Refusal :=
  match decodeCommand i.command with
  | .command c => dispatch c s
  | .rejected _ => .refused .reservedOp

/-- A step in a free phase (R21): a request is accepted, and without one no register changes (R23). -/
def freeStep (dispatch : Dispatcher w) (i : PortIn) (s : State w) : Host.Outcome (State w) Fault Refusal :=
  if i.start then accept dispatch i s else .next s

/-- One step of the block on the sampled input ports (R21). `rst` comes before everything (R106); in a working phase
none of `start`, `op`, `a`, `b` is read (R109). -/
def clockEdge (dispatch : Dispatcher w) (i : PortIn) (s : State w) : Host.Outcome (State w) Fault Refusal :=
  if i.rst then .next (resetAction s)
  else
    match s.phase with
    | .idle => freeStep dispatch i s
    | .addRun => .next (addRunStep s)
    | .subNeg => .next (subNegStep s)
    | .subRun => .next (subRunStep s)
    | .divOuter => .next (divOuterStep s)
    | .divShift => .next (divShiftStep s)
    | .divFin => .next (divFinStep s)
    | .done => freeStep dispatch i s

/-- The host's move between two steps (R14): it drives the next values it has, and with none left it leaves the lines
as they are. Assumption 4. -/
def hostMove (s : State w) : State w :=
  match s.host with
  | [] => s
  | p :: rest => { s with ports := p, host := rest }

/-- The host's move after a step that has a successor. -/
def afterEdge : Host.Outcome (State w) Fault Refusal → Host.Outcome (State w) Fault Refusal
  | .next s => .next (hostMove s)
  | .fault r => .fault r
  | .refused r => .refused r

/-- A state whose very next step accepts what the ports `p` request: `p` is on the ports, and a block that was busy is
free, in `IDLE` (assumption 6). -/
def present (p : PortIn) (s : State w) : State w :=
  { s with
    phase := if s.busy then .idle else s.phase
    ports := p }

/-- The ports on which a host requests the command with the written word `x` (R48), whatever its `op`; the bits of `x`
from `nbits` on are 0. DESIGN CHOICE: a number that then has a bit above bit 65 is no `CMDW`, as the decoder says too,
and the ports request nothing (assumption 17). -/
def requestWord (nbits x : Nat) : PortIn :=
  let word := x % 2 ^ nbits
  if fitsCmdWord word then PortIn.request (unpack (BitVec.ofNat 66 word)) else PortIn.quiet

end Sys2Proof.Machine
end

