-- ==== Sys2Proof/Machine/Step.lean ====
section
/-! DEFINITION. Step.lean: one step of the machine: one clock edge of the block (R14, R21), then the host's move. -/

namespace Sys2Proof.Machine

/-- One step: the block samples its input ports at the edge, and the host then drives its next values. -/
def step (s : State) : Host.Outcome State Fault Refusal := afterEdge (clockEdge exec s.ports s)

/-- One step of the block whose divider is `w` bits wide: the machine with `W_WIDE` as its argument (R5, U8). At the
default width it is `step`. -/
def stepAt {w : Nat} (s : State w) : Host.Outcome (State w) Fault Refusal := afterEdge (clockEdge execAt s.ports s)

/-- `s` with the command of the written word `w` requested on the ports of a free block, so that the next step accepts
it. The block fetches nothing (R19, R44): assumption 6 says how a command comes to run. -/
def State.withFetchWord (s : State) (nbits w : Nat) : State := present (requestWord nbits w) s

end Sys2Proof.Machine
end

