-- ==== Sys2Proof/Machine/System.lean ====
section
/-! DEFINITION. System.lean: a system of instances (R42, R105): separate copies of the state that share nothing, each
with its own host side; the behaviour of the system is any interleaving of their separate steps. -/

namespace Sys2Proof.Machine

/-- `n` instances of the block (the parameter `N_INST` of R5), whose dividers are `w` bits wide (the parameter `W_WIDE`). -/
abbrev System (n : Nat) (w : Nat := Config.wWide) := Vector (State w) n

/-- The system after reset: every instance starts by its own reset (R105), which leaves it free values of its own: the
spec relates the unspecified registers of no two instances, and neither does the model (assumption 21). -/
def System.reset {w : Nat} (n : Nat) : System n w := Vector.ofFn fun k => State.resetOf k.val

/-- One step of instance `k`; the others do not move (R42). -/
def System.stepAt {n w : Nat} (k : Fin n) (v : System n w) : Host.Outcome (System n w) Fault Refusal :=
  match Machine.stepAt v[k] with
  | .next s => .next (v.set k s)
  | .fault r => .fault r
  | .refused r => .refused r

end Sys2Proof.Machine
end

