-- ==== Sys2Proof/Machine/LevelF.lean ====
section
/-! DEFINITION. LevelF.lean: the functional (level F) meaning of the commands (R11): three total functions from two
32-bit patterns to an outcome. Level M (the other files of this folder) reaches the same outcomes step by step
(R116). -/

namespace Sys2Proof.Machine

/-- `F_ADD(a, b) = Ok((a + b) mod 2^32)` (R56), from the exact sum of the signed operands. -/
def fAdd (a b : Word) : CmdOutcome := .ok (BitVec.ofInt 32 (a.toInt + b.toInt))

/-- `F_DIV(a, b)` (R66): the error iff `b == 0`, else the exact quotient rounded toward zero, mod 2^32. -/
def fDiv (a b : Word) : CmdOutcome :=
  if b = 0 then .divisionByZero else .ok (BitVec.ofInt 32 (a.toInt.tdiv b.toInt))

/-- `F_SUB(a, b) = Ok((a - b) mod 2^32)` (R83), from the exact difference of the signed operands. -/
def fSub (a b : Word) : CmdOutcome := .ok (BitVec.ofInt 32 (a.toInt - b.toInt))

/-- The outcome of a command at level F (R11). -/
def levelF : Instr → CmdOutcome
  | .add a b => fAdd a b
  | .div a b => fDiv a b
  | .sub a b => fSub a b

end Sys2Proof.Machine
end

