-- ==== Sys2Proof/Machine/Timing.lean ====
section
/-! DEFINITION. Timing.lean: the step counts of the spec's step machine (R63, R78, R89). They are timing: no outcome
depends on them (R117), and they hold of this step packaging only (U7, assumption 7). -/

namespace Sys2Proof.Machine

/-- `tz(v)` (R9): the least `i` with `v[i] == 1`, the width if there is none. -/
def tz {w : Nat} (v : BitVec w) : Nat := ((List.range w).find? fun i => v.getLsbD i).getD w

/-- The number of iterations the adder loop runs on a loaded pair (R62), counted up to `fuel`. -/
def adderItersUpTo : Nat → Word → Word → Nat
  | 0, _, _ => 0
  | fuel + 1, xa, xb =>
    if xb = 0 then 0
    else 1 + adderItersUpTo fuel (adderIter xa xb).1 (adderIter xa xb).2

/-- `n(x, y)` (R62), on the pair that `AdderLoad` loads; the loop never runs more than 32 iterations. -/
def adderIters (x y : Word) : Nat :=
  let p := adderLoad x y
  adderItersUpTo 33 p.1 p.2

/-- The step count of `ADD` (R63): `n + 2`. -/
def addSteps (a b : Word) : Nat := adderIters a b + 2

/-- `Q = floor(|int(a)| / |int(b)|)` (R78). -/
def magQuotient (a b : Word) : Nat := a.toInt.natAbs / b.toInt.natAbs

/-- The sum over every `k` below `n` with bit `k` of `q` set of `k + 2` (R78). -/
def roundSteps (q : Nat) : Nat → Nat
  | 0 => 0
  | n + 1 => roundSteps q n + (if q.testBit n then n + 2 else 0)

/-- The step count of `DIV` (R78). -/
def divSteps (a b : Word) : Nat :=
  if b = 0 ∨ a = 0 ∨ b = 1 then 1 else 3 + roundSteps (magQuotient a b) 32

/-- The step count of `SUB` (R89): `n1 + n2 + 3`. -/
def subSteps (a b : Word) : Nat := adderIters (~~~b) 1 + adderIters a (-b) + 3

/-- `N(op, a, b)` (R116): the number of steps from the accepting step to the first step after which `done == 1`. -/
def stepCount : Instr → Nat
  | .add a b => addSteps a b
  | .div a b => divSteps a b
  | .sub a b => subSteps a b

/-- The bound on `N(op, a, b)` (R116, R117). -/
def stepBound : Instr → Nat
  | .add _ _ => 34
  | .div _ _ => 530
  | .sub _ _ => 36

end Sys2Proof.Machine
end

