-- ==== Sys2Proof/Safety.lean ====
section
/-! DEFINITION. Safety.lean: the terms claims are stated in: runs, what the host does (R113, R115), which registers hold
a value (R29), and the invariants of the block (R24, R75, R76). -/

namespace Sys2Proof.Machine

variable {w : Nat}

/-- `n` steps, stopping at the first refusal. -/
def run : Nat → State → Host.Outcome State Fault Refusal
  | 0, s => .next s
  | n + 1, s =>
    match step s with
    | .next t => run n t
    | .fault r => .fault r
    | .refused r => .refused r

/-- `n` steps of the block whose divider is `w` bits wide. -/
def runAt : Nat → State w → Host.Outcome (State w) Fault Refusal
  | 0, s => .next s
  | n + 1, s =>
    match stepAt s with
    | .next t => runAt n t
    | .fault r => .fault r
    | .refused r => .refused r

/-- The complete state of one instance (R17): its registers, without the model's own fields. -/
structure BlockRegs (w : Nat := Config.wWide) where
  phase : Phase
  err : Bool
  res : Word
  xa : Word
  xb : Word
  sa : Word
  div : DivRegs w
  deriving DecidableEq, Repr

/-- The registers of R17 in a state. -/
def State.regs (s : State w) : BlockRegs w := ⟨s.phase, s.err, s.res, s.xa, s.xb, s.sa, s.div⟩

/-- The host requests command `i` in the coming step (R115): `rst = 0`, `start = 1`, and `i` on `op`, `a`, `b`. -/
def Requests (i : Instr) (s : State w) : Prop :=
  s.ports.rst = false ∧ s.ports.start = true ∧ s.ports.command = i.toCommand

/-- The coming step is an accepting step (R22). -/
def State.accepting (s : State w) : Bool := !s.ports.rst && s.free && s.ports.start

/-- The host holds `rst` at 0 in the coming step and in every later one (R116). -/
def ResetLow (s : State w) : Prop := s.ports.rst = false ∧ ∀ p ∈ s.host, p.rst = false

/-- The host requests nothing in the coming step and in every later one. -/
def StartLow (s : State w) : Prop := s.ports.start = false ∧ ∀ p ∈ s.host, p.start = false

/-- The host never has the reserved `0b11` on `op` (R113). -/
def NeverReserved (s : State w) : Prop := s.ports.op ≠ 0b11#2 ∧ ∀ p ∈ s.host, p.op ≠ 0b11#2

/-- Two states agree on everything that R29 lists as defined in their phase, and on what the host does. -/
def DefinedAgree (s t : State w) : Prop :=
  s.phase = t.phase ∧ s.err = t.err ∧ s.ports = t.ports ∧ s.host = t.host ∧
    match s.phase with
    | .idle => True
    | .addRun => s.xa = t.xa ∧ s.xb = t.xb
    | .subNeg => s.xa = t.xa ∧ s.xb = t.xb ∧ s.sa = t.sa
    | .subRun => s.xa = t.xa ∧ s.xb = t.xb
    | .divOuter =>
      s.div.neg = t.div.neg ∧ s.div.rem = t.div.rem ∧ s.div.dvs = t.div.dvs ∧ s.div.quo = t.div.quo
    | .divShift => s.div = t.div
    | .divFin =>
      s.div.neg = t.div.neg ∧ s.div.rem = t.div.rem ∧ s.div.dvs = t.div.dvs ∧ s.div.quo = t.div.quo
    | .done => s.err = false → s.res = t.res

/-- I1 of R75 for the magnitudes `A` of the dividend and `B` of the divisor: `DVS = B`, `A = QUO * B + REM`. -/
def OuterTie (A B : Nat) (d : DivRegs w) : Prop :=
  d.dvs.toNat = B ∧ A = d.quo.toNat * B + d.rem.toNat

/-- I2 of R75: I1's equation, and `MUL = 2^k`, `TMP = B * 2^k`, `TMP <= REM` for some `k`. -/
def ShiftTie (A B : Nat) (d : DivRegs w) : Prop :=
  OuterTie A B d ∧ ∃ k : Nat, d.mul.toNat = 2 ^ k ∧ d.tmp.toNat = B * 2 ^ k ∧ d.tmp.toNat ≤ d.rem.toNat

/-- What holds of the divider's registers while any of `DIV_OUTER`, `DIV_SHIFT`, `DIV_FIN` runs (R75, R76), the
operands of the command forgotten. -/
def DivBounded (d : DivRegs w) : Prop :=
  1 ≤ d.dvs.toNat ∧ d.dvs.toNat ≤ 2 ^ 31 ∧ d.quo.toNat * d.dvs.toNat + d.rem.toNat ≤ 2 ^ 31

/-- The contributions still to come are smaller powers of two than every one in `QUO` (R75): `2^j` divides `QUO` and
`REM < DVS * 2^j`. -/
def Decreasing (j : Nat) (d : DivRegs w) : Prop :=
  2 ^ j ∣ d.quo.toNat ∧ d.rem.toNat < d.dvs.toNat * 2 ^ j

/-- The invariant of the block: `ERR == 1` only in `DONE` (R24), and the divider's registers in each of its phases
(R75, R76). -/
def BlockInv (s : State w) : Prop :=
  (s.err = true → s.phase = .done) ∧
    match s.phase with
    | .idle => True
    | .addRun => True
    | .subNeg => True
    | .subRun => True
    | .divOuter => DivBounded s.div ∧ ∃ j, Decreasing j s.div
    | .divShift =>
      DivBounded s.div ∧ ∃ j k, k < j ∧ Decreasing j s.div ∧
        s.div.mul.toNat = 2 ^ k ∧ s.div.tmp.toNat = s.div.dvs.toNat * 2 ^ k ∧ s.div.tmp.toNat ≤ s.div.rem.toNat
    | .divFin => DivBounded s.div ∧ s.div.rem.toNat < s.div.dvs.toNat
    | .done => True

end Sys2Proof.Machine
end

