-- ==== Sys2Proof/Certificates/Slice0/Obligations.lean ====
section
/-! DEFINITION. Obligations.lean: the statements for the provers. Each docstring names the rule it formalises. `run n s` is
`n` steps; `s.regs` is the complete state of R17, so an equation about it is the instruction's frame as well. A RES
written "for some v" is the spec's `RES <- unspecified`: nothing is said of `v`. What the host does later stands in
`s.host`, which every statement takes as it comes; that the ports stay as they are once it is used up is the model's
choice (assumption 4). -/

open Sys2Proof Sys2Proof.Machine

/-! ### The command encoding -/

/-- R46 to R49: the decoder gives back every command, with every operand at every value, from its written word, and
every number that is such a word is decoded the same way. -/
def Obligations.DecodeOfEncodeIsTheCommand : Prop :=
  ∀ i : Instr, decode (encode i) = .command i ∧ decodeNat (encode i).toNat = .command i ∧
    decodeCommand i.toCommand = .command i

/-- R48, R53: a word that decodes to a command is the one written word of that command. That a number that decodes is
that word's number, so that none with a bit above bit 65 decodes, is the model's choice (assumption 17). -/
def Obligations.OneWordForEachCommand : Prop :=
  (∀ (w : CmdWord) (i : Instr), decode w = .command i → encode i = w) ∧
    ∀ (n : Nat) (i : Instr), decodeNat n = .command i → (encode i).toNat = n

/-- R47, R51, R52: the top two bits alone decide: 0 is `ADD`, 1 is `DIV`, 2 is `SUB`, each with both operands taken
unchanged from their fields, and 3 is reserved. -/
def Obligations.TopTwoBitsSelectTheCommand : Prop :=
  ∀ w : CmdWord,
    let a : Word := BitVec.ofNat 32 (w.toNat / 2 ^ 32)
    let b : Word := BitVec.ofNat 32 w.toNat
    (w.toNat / 2 ^ 64 = 0 → decode w = .command (.add a b)) ∧
    (w.toNat / 2 ^ 64 = 1 → decode w = .command (.div a b)) ∧
    (w.toNat / 2 ^ 64 = 2 → decode w = .command (.sub a b)) ∧
    (w.toNat / 2 ^ 64 = 3 ↔ decode w = .rejected .reservedOp)

/-- R48, R54: the three worked words of R48, written out digit by digit, decode to the commands they stand for. -/
def Obligations.WorkedWordsDecode : Prop :=
  decode 0x00000000500000003#66 = .command (.add 5#32 3#32) ∧
    decode 0x1FFFFFFF100000003#66 = .command (.div 0xFFFFFFF1#32 3#32) ∧
    decode 0x20000000500000008#66 = .command (.sub 5#32 8#32)

/-- R54: the written form `MNEMONIC x, y` stands for `op ∥ x ∥ y`, a negative literal `-n` for the pattern
`2^32 - n`. Which integers are literals, those from `-2^31` to `2^32 - 1`, is the model's reading, since R54 gives no
range (assumption 14). -/
def Obligations.WrittenFormStandsForTheWord : Prop :=
  ∀ x y : Int, -(2 ^ 31) ≤ x → x < 2 ^ 32 → -(2 ^ 31) ≤ y → y < 2 ^ 32 →
    let px : Nat := (if 0 ≤ x then x else 2 ^ 32 + x).toNat
    let py : Nat := (if 0 ≤ y then y else 2 ^ 32 + y).toNat
    (∃ i, assemble .add x y = some i ∧ (encode i).toNat = 0 * 2 ^ 64 + px * 2 ^ 32 + py) ∧
    (∃ i, assemble .div x y = some i ∧ (encode i).toNat = 1 * 2 ^ 64 + px * 2 ^ 32 + py) ∧
    (∃ i, assemble .sub x y = some i ∧ (encode i).toNat = 2 * 2 ^ 64 + px * 2 ^ 32 + py)

/-! ### The step -/

/-- R21, R22 with the model's host side (assumption 4): a step in a free phase that requests a legal command is the
meaning of that command, after which the host drives its next values and no register changes; `withFetchWord` makes
any written word such a request (assumption 6). -/
def Obligations.StepRunsTheDecodedCommand : Prop :=
  (∀ (i : Instr) (s : State), s.free = true → s.ports.rst = false → s.ports.start = true →
    decode (pack s.ports.command) = .command i → step s = afterEdge (exec i s)) ∧
  (∀ t : State, (hostMove t).regs = t.regs ∧ (hostMove t).draws = t.draws ∧
    (t.host = [] → hostMove t = t) ∧
    ∀ p rest, t.host = p :: rest → (hostMove t).ports = p ∧ (hostMove t).host = rest) ∧
  ∀ (i : Instr) (s : State) (w : Nat), decodeTableWord 72 w = some i →
    (s.withFetchWord 72 w).free = true ∧
    step (s.withFetchWord 72 w) = afterEdge (exec i (s.withFetchWord 72 w))

/-- R31, R51: the step has a successor in every state and for every input, except an accepting step with the reserved
`op`, which is refused; in a working phase and with `rst == 1` the reserved `op` does no harm. -/
def Obligations.OnlyTheReservedOpIsRefused : Prop :=
  ∀ s : State,
    (s.accepting = true → s.ports.op = 0b11#2 → step s = .refused .reservedOp) ∧
    (¬(s.accepting = true ∧ s.ports.op = 0b11#2) → ∃ t, step s = .next t)

/-- R113, R115: a host that never has `0b11` on `op` never meets a stop, in any state and for any number of steps. -/
def Obligations.LegalHostIsNeverStopped : Prop :=
  ∀ s : State, NeverReserved s → ∀ n, ∃ t, run n s = .next t ∧ NeverReserved t

/-- R23: a step with `rst == 0`, `PHASE` in `{IDLE, DONE}` and `start == 0` changes no register, and the outcome on the
ports is held, for any number of steps, for as long as no command is accepted and no reset is applied. -/
def Obligations.StepWithoutRequestHoldsEverything : Prop :=
  ∀ s : State, s.free = true →
    (s.ports.rst = false → s.ports.start = false →
      ∃ t, step s = .next t ∧ t.regs = s.regs ∧ t.portOut = s.portOut ∧ t.outcome = s.outcome) ∧
    (ResetLow s → StartLow s →
      ∀ n, ∃ t, run n s = .next t ∧ t.regs = s.regs ∧ t.portOut = s.portOut ∧ t.outcome = s.outcome)

/-- R109: in a working phase a step reads none of `start`, `op`, `a`, `b`: two steps that differ in nothing else have
the same registers after them, and both have a successor. -/
def Obligations.BusyStepReadsNoRequest : Prop :=
  ∀ (s : State) (p q : PortIn), s.busy = true → p.rst = false → q.rst = false →
    ∃ t u, step { s with ports := p } = .next t ∧ step { s with ports := q } = .next u ∧
      t.regs = u.regs ∧ t.draws = u.draws ∧ t.host = u.host

/-- R29: no step reads a register in a phase where it is not defined: two states that agree on the defined registers
are refused alike, or go to states that agree on the defined registers again. -/
def Obligations.OnlyDefinedRegistersAreRead : Prop :=
  ∀ s t : State, DefinedAgree s t →
    (step s = .refused .reservedOp ∧ step t = .refused .reservedOp) ∨
      ∃ s' t', step s = .next s' ∧ step t = .next t' ∧ DefinedAgree s' t'

/-! ### Reset -/

/-- R106: a step with `rst == 1`, whatever the phase and the other inputs, goes to `IDLE` with `ERR = 0` and no value on
`result`, accepts nothing, and the step after it may already accept a command. -/
def Obligations.ResetStepClearsTheBlock : Prop :=
  ∀ s : State, s.ports.rst = true →
    ∃ t, step s = .next t ∧ t.phase = .idle ∧ t.err = false ∧ t.busy = false ∧ t.isDone = false ∧
      t.result? = none ∧ t.outcome = none ∧ ∀ i, Requests i t → step t = afterEdge (exec i t)

/-- R33: after a reset step, and in the state after reset, `PHASE` is `IDLE`, `ERR` is 0 and the ports `busy`, `done`,
`err` are 0; `result` has no value, and nothing is said of the registers the rule leaves unspecified. -/
def Obligations.ResetValues : Prop :=
  (∀ s : State, s.ports.rst = true → ∃ t, step s = .next t ∧ t.phase = .idle ∧ t.err = false ∧
    t.portOut.busy = false ∧ t.portOut.done = false ∧ t.portOut.err = false ∧ t.result? = none) ∧
  State.reset.phase = .idle ∧ State.reset.err = false ∧ State.reset.portOut.busy = false ∧
    State.reset.portOut.done = false ∧ State.reset.portOut.err = false ∧ State.reset.result? = none

/-- R107: a reset step in a working phase abandons the command: the block is in `IDLE`, and for as long as the host
requests nothing after that step no outcome is ever presented. -/
def Obligations.ResetAbandonsTheCommand : Prop :=
  ∀ s : State, s.busy = true → s.ports.rst = true → (∀ p ∈ s.host, p.start = false) →
    ∀ n, ∃ t, run (n + 1) s = .next t ∧ t.phase = .idle ∧ t.isDone = false ∧ t.outcome = none

/-- R95: a request presented together with `rst == 1` is not accepted and raises nothing, and among the tests of `DIV`
the zero divisor comes first: `DIV 0, 0` is the error. -/
def Obligations.ResetOutranksAndZeroDivisorComesFirst : Prop :=
  (∀ (s : State) (p : PortIn), p.rst = true → ∃ t, step { s with ports := p } = .next t ∧
    t.phase = .idle ∧ t.err = false) ∧
  ∀ (s : State) (a : Word), s.free = true →
    ∃ t, exec (.div a 0) s = .next t ∧ t.outcome = some .divisionByZero

/-! ### The flag ERR and the output ports -/

/-- R24: `ERR` is set to 1 only by the accepting step of `DIV` with divisor 0, to 0 by reset and by every other accepting
step, and written by no other step; no step reads it; `busy` and `done` are functions of `PHASE`.
The last clause compares two states that differ in `ERR` alone; that the registers R106 and R22 leave unspecified are
equal after their steps is the model's choice (assumption 21). -/
def Obligations.ErrIsWrittenOnlyByResetAndAccept : Prop :=
  (∀ s t : State, step s = .next t →
    (s.ports.rst = true → t.err = false) ∧
    (s.accepting = true → (t.err = true ↔ s.ports.op = 0b01#2 ∧ s.ports.b = 0)) ∧
    (s.ports.rst = false → s.accepting = false → t.err = s.err)) ∧
  State.reset.err = false ∧
  (∀ s t : State, s.phase = t.phase → s.busy = t.busy ∧ s.isDone = t.isDone) ∧
  ∀ (s t : State) (e : Bool), step s = .next t → ∃ u, step { s with err := e } = .next u ∧
    u.phase = t.phase ∧ u.res = t.res ∧ u.xa = t.xa ∧ u.xb = t.xb ∧ u.sa = t.sa ∧ u.div = t.div ∧
    ((s.ports.rst = true ∨ s.accepting = true) → u.err = t.err)

/-- R25: `STATUS` has exactly four legal values, one for each row of the rule's table. The premise is the first clause of
the invariant. -/
def Obligations.StatusHasFourLegalValues : Prop :=
  ∀ s : State, (s.err = true → s.phase = .done) →
    (s.status = 0b000#3 ↔ s.phase = .idle) ∧
    (s.status = 0b100#3 ↔ s.phase.working = true) ∧
    (s.status = 0b010#3 ↔ s.phase = .done ∧ s.outcome = some (.ok s.res)) ∧
    (s.status = 0b011#3 ↔ s.phase = .done ∧ s.outcome = some .divisionByZero) ∧
    (s.status = 0b000#3 ∨ s.status = 0b100#3 ∨ s.status = 0b010#3 ∨ s.status = 0b011#3)

/-- R93: raising `DivisionByZero` in the accepting step of `DIV a, 0` is exactly `ERR <- 1`, `PHASE <- DONE`, with `RES`
left unspecified and no other register written, and the ports show it. -/
def Obligations.DivisionByZeroEntry : Prop :=
  ∀ (a : Word) (s : State), s.free = true →
    ∃ t v, exec (.div a 0) s = .next t ∧
      t.regs = { s.regs with err := true, phase := .done, res := v } ∧
      t.busy = false ∧ t.isDone = true ∧ t.err = true ∧ t.result? = none ∧
      t.ports = s.ports ∧ t.host = s.host

/-- R99: the error outcome is held while nothing is accepted, and is dropped by reset and by the next accepting step,
which takes its command exactly as from the same state with `ERR` at 0. That the two accepting steps leave the same
value in `RES`, where R22 leaves it unspecified, is the model's choice (assumption 21). -/
def Obligations.ErrorLeavesNoTrace : Prop :=
  ∀ s : State, s.phase = .done → s.err = true →
    (s.ports.rst = false → s.ports.start = false → ∃ t, step s = .next t ∧ t.isDone = true ∧ t.err = true) ∧
    (∀ i, Requests i s → step s = step { s with err := false } ∧
      ∀ t, step s = .next t → (t.err = true ↔ ∃ a, i = .div a 0)) ∧
    (s.ports.rst = true → ∃ t, step s = .next t ∧ t.isDone = false ∧ t.err = false)

/-! ### The adder and ADD -/

/-- R57: what `AdderLoad` loads: the two early returns in their order, else the pair itself; the sum is kept, and the
second test saves exactly one iteration. -/
def Obligations.AdderLoadKeepsTheSum : Prop :=
  ∀ x y : Word,
    (y = 0 → adderLoad x y = (x, 0)) ∧ (y ≠ 0 → x = 0 → adderLoad x y = (y, 0)) ∧
    (y ≠ 0 → x ≠ 0 → adderLoad x y = (x, y)) ∧
    (adderLoad x y).1 + (adderLoad x y).2 = x + y ∧ adderIter 0 y = (y, 0)

/-- R58: one iteration, bit by bit, in each of the three phases that run the adder: the carry out of bit 31 goes nowhere,
and no other register changes. It is taken only with `XB != 0`: with `XB == 0` the step leaves the phase. -/
def Obligations.AdderIterationBitByBit : Prop :=
  (∀ s : State, s.phase = .addRun ∨ s.phase = .subNeg ∨ s.phase = .subRun → s.ports.rst = false → s.xb ≠ 0 →
    ∃ t, step s = .next t ∧ t.regs = { s.regs with xa := t.xa, xb := t.xb } ∧
      (∀ i, i < 32 → t.xa.getLsbD i = (s.xa.getLsbD i ^^ s.xb.getLsbD i)) ∧
      t.xb.getLsbD 0 = false ∧
      ∀ i, i < 31 → t.xb.getLsbD (i + 1) = (s.xa.getLsbD i && s.xb.getLsbD i)) ∧
  ∀ s : State, s.phase = .addRun ∨ s.phase = .subNeg ∨ s.phase = .subRun → s.ports.rst = false → s.xb = 0 →
    ∃ t, step s = .next t ∧ t.phase ≠ s.phase

/-- R59: the accepting step of `ADD`. -/
def Obligations.AddAcceptLoadsTheAdder : Prop :=
  ∀ (a b : Word) (s : State), s.free = true →
    ∃ t v, exec (.add a b) s = .next t ∧
      t.regs = { s.regs with
        phase := .addRun, err := false, res := v, xa := (adderLoad a b).1, xb := (adderLoad a b).2 } ∧
      t.ports = s.ports ∧ t.host = s.host

/-- R60, R86: a step in `ADD_RUN` or `SUB_RUN`: the finish if `XB == 0`, else one iteration in the same phase. -/
def Obligations.RunStepFinishesOrIterates : Prop :=
  ∀ s : State, s.phase = .addRun ∨ s.phase = .subRun → s.ports.rst = false →
    ∃ t, step s = .next t ∧
      (s.xb = 0 → t.regs = { s.regs with res := s.xa, phase := .done }) ∧
      (s.xb ≠ 0 → t.regs = { s.regs with xa := s.xa ^^^ s.xb, xb := (s.xa &&& s.xb) <<< 1 })

/-- R61: for all `x` and `y`, `x + y = (x ^ y) + 2 * (x & y)` as integers, so an iteration keeps the sum, `AdderLoad`
loads a pair with the same sum, and when the loop ends `XA` is the sum of the loaded pair, for `ADD` the result. -/
def Obligations.AdderLoopLeavesTheSum : Prop :=
  (∀ x y : Word, x.toNat + y.toNat = (x ^^^ y).toNat + 2 * (x &&& y).toNat) ∧
  (∀ x y : Word, (adderIter x y).1 + (adderIter x y).2 = x + y) ∧
  (∀ x y : Word, (adderLoad x y).1 + (adderLoad x y).2 = x + y) ∧
  ∀ s : State, s.phase = .addRun → ResetLow s →
    ∃ t u, run (adderItersUpTo 33 s.xa s.xb) s = .next t ∧ t.phase = .addRun ∧ t.xb = 0 ∧ t.xa = s.xa + s.xb ∧
      run (adderItersUpTo 33 s.xa s.xb + 1) s = .next u ∧ u.phase = .done ∧ u.res = s.xa + s.xb

/-- R62: an iteration adds at least one trailing zero to the carry mask, so the loop runs at most `32 - tz(y)` times on a
pair `(x, y)` with `y != 0`, not at all on `(x, 0)`, and 32 is reached. -/
def Obligations.AdderLoopEnds : Prop :=
  (∀ x y : Word, y ≠ 0 → (adderIter x y).2 = 0 ∨ tz y + 1 ≤ tz (adderIter x y).2) ∧
  (∀ x y : Word, y ≠ 0 → 1 ≤ adderItersUpTo 33 x y ∧ adderItersUpTo 33 x y ≤ 32 - tz y) ∧
  (∀ x : Word, adderItersUpTo 33 x 0 = 0) ∧
  adderItersUpTo 33 0xFFFFFFFF#32 1#32 = 32 ∧ adderItersUpTo 33 0x7FFFFFFF#32 1#32 = 32

/-- R63: `ADD a, b` takes `n + 2` steps, from 2 to 34, and 2 exactly when an operand is 0. -/
def Obligations.AddStepCount : Prop :=
  ∀ a b : Word, 2 ≤ addSteps a b ∧ addSteps a b ≤ 34 ∧ (addSteps a b = 2 ↔ a = 0 ∨ b = 0) ∧
    ∀ s : State, s.free = true → Requests (.add a b) s → ResetLow s →
      (∀ k, 1 ≤ k → k < addSteps a b → ∃ t, run k s = .next t ∧ t.isDone = false) ∧
      ∃ t, run (addSteps a b) s = .next t ∧ t.isDone = true

/-- R56: `ADD a, b` completes: from its accepting step on, in `N - 1` further steps, the block is in `DONE` with
`Ok((a + b) mod 2^32)`, while `rst` stays 0 and whatever else the host has on the ports; only `XA`, `XB`, `RES`, `PHASE` and `ERR` are
written. -/
def Obligations.AddCommandCompletes : Prop :=
  ∀ (a b : Word) (s : State), s.free = true → ResetLow s →
    encode (.add a b) = 0b00#2 ++ (a ++ b) ∧
    ∃ t u, exec (.add a b) s = .next t ∧ run (addSteps a b - 1) t = .next u ∧
      u.regs = { s.regs with phase := .done, err := false, res := a + b, xa := u.xa, xb := u.xb } ∧
      u.outcome = some (.ok (a + b)) ∧
      (a + b).toInt =
        (if a.toInt + b.toInt > 2 ^ 31 - 1 then a.toInt + b.toInt - 2 ^ 32
         else if a.toInt + b.toInt < -(2 ^ 31) then a.toInt + b.toInt + 2 ^ 32
         else a.toInt + b.toInt)

/-- R65: the laws of `ADD`, its step count included: identities, commutativity, associativity modulo 2^32, the sharper
bound on the iterations, and that the result bits do not depend on the signed or unsigned reading. -/
def Obligations.AddLaws : Prop :=
  (∀ a b : Word, fAdd a 0 = .ok a ∧ fAdd 0 b = .ok b ∧ fAdd a b = fAdd b a ∧ addSteps a b = addSteps b a) ∧
  (∀ a b : Word, fAdd a b = .ok (BitVec.ofNat 32 (a.toNat + b.toNat))) ∧
  (∀ a b c d e : Word, fAdd a b = .ok d → fAdd b c = .ok e → fAdd d c = fAdd a e) ∧
  ∀ a b : Word, adderIters a b ≤ 32 - max (tz a) (tz b)

/-- R64: the symbolic rows of the corner-case table of `ADD`, with their iteration counts. -/
def Obligations.AddCornerCases : Prop :=
  (∀ x : Word, fAdd x 0 = .ok x ∧ adderIters x 0 = 0) ∧
  (∀ y : Word, fAdd 0 y = .ok y ∧ adderIters 0 y = 0) ∧
  (∀ x : Word, fAdd x (~~~x) = .ok 0xFFFFFFFF#32 ∧ (x ≠ 0 → ~~~x ≠ 0 → adderIters x (~~~x) = 1)) ∧
  fAdd maxInt32 1 = .ok minInt32 ∧ adderIters maxInt32 1 = 32 ∧
  fAdd 0xFFFFFFFF#32 1 = .ok 0 ∧ adderIters 0xFFFFFFFF#32 1 = 32 ∧
  fAdd minInt32 minInt32 = .ok 0 ∧ adderIters minInt32 minInt32 = 1 ∧
  fAdd minInt32 0xFFFFFFFF#32 = .ok maxInt32 ∧ adderIters minInt32 0xFFFFFFFF#32 = 1 ∧
  fAdd maxInt32 maxInt32 = .ok 0xFFFFFFFE#32 ∧ adderIters maxInt32 maxInt32 = 2 ∧
  fAdd 0xFFFFFFFF#32 0xFFFFFFFF#32 = .ok 0xFFFFFFFE#32 ∧ adderIters 0xFFFFFFFF#32 0xFFFFFFFF#32 = 2

/-! ### The divider and DIV -/

/-- R67, R68: the accepting step of `DIV`: the three tests in LAB07's order, each ending the command in that step, else
the loading of the divider; only the registers the rule names are written. -/
def Obligations.DivAcceptTestsThenLoads : Prop :=
  ∀ (a b : Word) (s : State), s.free = true →
    ∃ t v, exec (.div a b) s = .next t ∧ t.ports = s.ports ∧ t.host = s.host ∧
      (b = 0 → t.regs = { s.regs with err := true, phase := .done, res := v }) ∧
      (b ≠ 0 → a = 0 → t.regs = { s.regs with err := false, phase := .done, res := 0 }) ∧
      (b ≠ 0 → a ≠ 0 → b = 1 → t.regs = { s.regs with err := false, phase := .done, res := a }) ∧
      (b ≠ 0 → a ≠ 0 → b ≠ 1 →
        t.regs = { s.regs with
          err := false, phase := .divOuter, res := v,
          div := { s.div with
            neg := a.getLsbD 31 ^^ b.getLsbD 31, rem := absWide Config.wWide a, dvs := absWide Config.wWide b,
            quo := 0 } })

/-- R70: the absolute value, at every admissible width: the operand is widened first, so `MIN_INT32` gives `2^31`, and
after the accepting step `REM` and `DVS` hold the absolute values, between 1 and `2^31`. -/
def Obligations.AbsoluteValueIsWidenedFirst : Prop :=
  (∀ (w : Nat) (v : Word), Config.wWideMin ≤ w →
    (absWide w v).toNat = v.toInt.natAbs ∧ (absWide w v).toNat ≤ 2 ^ 31 ∧ (v ≠ 0 → 1 ≤ (absWide w v).toNat) ∧
    (absWide w minInt32).toNat = 2 ^ 31) ∧
  ∀ (a b : Word) (s t : State), b ≠ 0 → a ≠ 0 → b ≠ 1 → exec (.div a b) s = .next t →
    t.div.rem = absWide Config.wWide a ∧ t.div.dvs = absWide Config.wWide b ∧
    1 ≤ t.div.rem.toNat ∧ t.div.rem.toNat ≤ 2 ^ 31 ∧ 1 ≤ t.div.dvs.toNat ∧ t.div.dvs.toNat ≤ 2 ^ 31

/-- R71: a step in `DIV_OUTER`. -/
def Obligations.DivOuterStepTests : Prop :=
  ∀ s : State, s.phase = .divOuter → s.ports.rst = false →
    ∃ t, step s = .next t ∧
      (s.div.dvs.toInt ≤ s.div.rem.toInt →
        t.regs = { s.regs with phase := .divShift, div := { s.div with tmp := s.div.dvs, mul := 1 } }) ∧
      (s.div.rem.toInt < s.div.dvs.toInt → t.regs = { s.regs with phase := .divFin })

/-- R72: a step in `DIV_SHIFT`: the shift is taken when twice the multiple is at most, equality included, the remaining
dividend, and otherwise the multiple is subtracted and its contribution accumulated. -/
def Obligations.DivShiftStepShiftsOrSubtracts : Prop :=
  ∀ s : State, s.phase = .divShift → s.ports.rst = false →
    ∃ t, step s = .next t ∧
      ((s.div.tmp <<< 1).toInt ≤ s.div.rem.toInt →
        t.regs = { s.regs with div := { s.div with tmp := s.div.tmp <<< 1, mul := s.div.mul <<< 1 } }) ∧
      (s.div.rem.toInt < (s.div.tmp <<< 1).toInt →
        t.regs = { s.regs with
          phase := .divOuter, div := { s.div with rem := s.div.rem - s.div.tmp, quo := s.div.quo + s.div.mul } })

/-- R73: the step in `DIV_FIN`: the accumulated result, negated if `NEG`, modulo 2^32. -/
def Obligations.DivFinStepNegatesAndNarrows : Prop :=
  ∀ s : State, s.phase = .divFin → s.ports.rst = false →
    ∃ t, step s = .next t ∧
      (s.div.neg = false →
        t.regs = { s.regs with phase := .done, res := BitVec.ofNat 32 s.div.quo.toNat }) ∧
      (s.div.neg = true →
        t.regs = { s.regs with phase := .done, res := -(BitVec.ofNat 32 s.div.quo.toNat) })

/-- R74: narrowing keeps bits 31:0 and never fails; the quotient keeps its value in every case but `MIN_INT32 / -1`, which
wraps to `MIN_INT32`. -/
def Obligations.NarrowingWrapsOnlyMinByMinusOne : Prop :=
  (∀ (q : Wide) (i : Nat), (low32 q).getLsbD i = (decide (i < 32) && q.getLsbD i)) ∧
  (∀ q : Wide, -(2 ^ 31) ≤ q.toInt → q.toInt < 2 ^ 31 → (low32 q).toInt = q.toInt) ∧
  fDiv minInt32 0xFFFFFFFF#32 = .ok minInt32 ∧
  ∀ a b : Word, b ≠ 0 → ¬(a = minInt32 ∧ b = 0xFFFFFFFF#32) →
    ∃ v, fDiv a b = .ok v ∧ v.toInt = a.toInt.tdiv b.toInt

/-- R75: the invariants I1 and I2 of the divider's loops hold after the accepting step and are kept by every step of the
two loops, and `DIV_FIN` is reached only with the quotient and the remainder of the magnitudes. -/
def Obligations.DividerLoopInvariants : Prop :=
  (∀ (a b : Word) (s t : State), b ≠ 0 → a ≠ 0 → b ≠ 1 → exec (.div a b) s = .next t →
    t.phase = .divOuter ∧ OuterTie a.toInt.natAbs b.toInt.natAbs t.div) ∧
  (∀ (A B : Nat) (s t : State), 1 ≤ B → B ≤ 2 ^ 31 → A ≤ 2 ^ 31 → s.ports.rst = false → step s = .next t →
    (s.phase = .divOuter → OuterTie A B s.div →
      (t.phase = .divShift ∧ ShiftTie A B t.div) ∨
      (t.phase = .divFin ∧ t.div.quo.toNat = A / B ∧ t.div.rem.toNat = A % B)) ∧
    (s.phase = .divShift → ShiftTie A B s.div →
      (t.phase = .divShift ∧ ShiftTie A B t.div) ∨ (t.phase = .divOuter ∧ OuterTie A B t.div)))

/-- R76: the ranges of the divider's registers in every state that meets the invariant, the contributions never
overlapping. -/
def Obligations.DividerRanges : Prop :=
  ∀ s : State, BlockInv s →
    (s.phase = .divOuter ∨ s.phase = .divShift ∨ s.phase = .divFin →
      1 ≤ s.div.dvs.toNat ∧ s.div.dvs.toNat ≤ 2 ^ 31 ∧ s.div.rem.toNat ≤ 2 ^ 31 ∧ s.div.quo.toNat ≤ 2 ^ 31 ∧
      -(2 ^ 31) ≤ s.div.signedQuotient.toInt ∧ s.div.signedQuotient.toInt ≤ 2 ^ 31) ∧
    (s.phase = .divShift →
      1 ≤ s.div.tmp.toNat ∧ s.div.tmp.toNat ≤ s.div.rem.toNat ∧
      2 ≤ (s.div.tmp <<< 1).toNat ∧ (s.div.tmp <<< 1).toNat ≤ 2 ^ 32 ∧
      1 ≤ s.div.mul.toNat ∧ s.div.mul.toNat ≤ 2 ^ 31 ∧ s.div.quo &&& s.div.mul = 0 ∧
      s.div.quo + s.div.mul = s.div.quo ||| s.div.mul)

/-- R76: for every width from 34 up the divider's datapath gives the same quotient, the exact one, whatever its
registers held before. -/
def Obligations.QuotientDoesNotDependOnTheWideWidth : Prop :=
  ∀ (w : Nat) (d : DivRegs w) (a b : Word), Config.wWideMin ≤ w → b ≠ 0 → fDiv a b = .ok (divideAt w d a b)

/-- R78: the step count of `DIV`: one step for the early outcomes, 3 when the loop body never runs, at most 530, reached,
and the count is that of the machine. -/
def Obligations.DivStepCount : Prop :=
  (∀ a b : Word, (b = 0 ∨ a = 0 ∨ b = 1 → divSteps a b = 1) ∧
    (¬(b = 0 ∨ a = 0 ∨ b = 1) → a.toInt.natAbs < b.toInt.natAbs → divSteps a b = 3) ∧
    (¬(b = 0 ∨ a = 0 ∨ b = 1) → 3 ≤ divSteps a b) ∧ divSteps a b ≤ 530) ∧
  divSteps maxInt32 0xFFFFFFFF#32 = 530 ∧ divSteps 0x80000001#32 0xFFFFFFFF#32 = 530 ∧
  divSteps minInt32 0xFFFFFFFF#32 = 36 ∧ divSteps 7#32 2#32 = 8 ∧
  ∀ (a b : Word) (s : State), s.free = true → Requests (.div a b) s → ResetLow s →
    (∀ k, 1 ≤ k → k < divSteps a b → ∃ t, run k s = .next t ∧ t.isDone = false) ∧
    ∃ t, run (divSteps a b) s = .next t ∧ t.isDone = true

/-- R66: `DIV a, b` completes: from its accepting step on, in `N - 1` further steps, the block is in `DONE` with the
quotient truncated toward zero modulo 2^32, or, if and only if the divisor is 0, with the error, at once, while `rst`
stays 0; only the registers the rule names are written, and the reduction changes the value of `MIN_INT32 / -1` only. -/
def Obligations.DivCommandCompletes : Prop :=
  ∀ (a b : Word) (s : State), s.free = true → ResetLow s →
    encode (.div a b) = 0b01#2 ++ (a ++ b) ∧
    (b ≠ 0 → (BitVec.ofInt 32 (a.toInt.tdiv b.toInt)).toInt =
      (if a = minInt32 ∧ b = 0xFFFFFFFF#32 then -(2 ^ 31) else a.toInt.tdiv b.toInt)) ∧
    ∃ t u, exec (.div a b) s = .next t ∧ run (divSteps a b - 1) t = .next u ∧
      u.regs = { s.regs with phase := .done, err := decide (b = 0), res := u.res, div := u.div } ∧
      (b = 0 → u = t ∧ u.outcome = some .divisionByZero ∧ u.result? = none) ∧
      (b ≠ 0 → u.outcome = some (.ok (BitVec.ofInt 32 (a.toInt.tdiv b.toInt))))

/-- R79: the sign rule and the rounding: the magnitude is the floor of the quotient of the magnitudes, negated iff the
signs differ, and the implied remainder is smaller than the divisor and has the dividend's sign. -/
def Obligations.DivTruncatesTowardZero : Prop :=
  ∀ a b : Word, b ≠ 0 →
    (∃ v, fDiv a b = .ok v ∧
      v = (if a.getLsbD 31 = b.getLsbD 31 then BitVec.ofNat 32 (magQuotient a b)
           else -(BitVec.ofNat 32 (magQuotient a b)))) ∧
    (¬(a = minInt32 ∧ b = 0xFFFFFFFF#32) → ∀ v, fDiv a b = .ok v →
      let r : Int := a.toInt - v.toInt * b.toInt
      r.natAbs < b.toInt.natAbs ∧ (r = 0 ∨ (0 < r ∧ 0 < a.toInt) ∨ (r < 0 ∧ a.toInt < 0)))

/-- R82: the laws of `DIV`: division by 1 and of 0, the error for every dividend, and the symmetry of truncating
division. -/
def Obligations.DivLaws : Prop :=
  (∀ a : Word, fDiv a 1 = .ok a ∧ fDiv a 0 = .divisionByZero) ∧ (∀ b : Word, b ≠ 0 → fDiv 0 b = .ok 0) ∧
  ∀ a b v : Word, a ≠ minInt32 → b ≠ 0 → b ≠ minInt32 → fDiv a b = .ok v →
    fDiv (-a) b = .ok (-v) ∧ fDiv a (-b) = .ok (-v) ∧ fDiv (-a) (-b) = .ok v

/-- R80: the corner-case table of `DIV`. -/
def Obligations.DivCornerCases : Prop :=
  (∀ a : Word, fDiv a 0 = .divisionByZero) ∧ (∀ b : Word, b ≠ 0 → fDiv 0 b = .ok 0) ∧
  (∀ a : Word, fDiv a 1 = .ok a) ∧ (∀ x : Word, fDiv x 0xFFFFFFFF#32 = .ok (-x)) ∧
  fDiv minInt32 0xFFFFFFFF#32 = .ok minInt32 ∧ fDiv minInt32 minInt32 = .ok 1 ∧
  (∀ x : Word, x ≠ minInt32 → fDiv x minInt32 = .ok 0) ∧ fDiv minInt32 maxInt32 = .ok 0xFFFFFFFF#32 ∧
  fDiv maxInt32 minInt32 = .ok 0 ∧ fDiv minInt32 2#32 = .ok 0xC0000000#32 ∧ fDiv maxInt32 maxInt32 = .ok 1 ∧
  (∀ x : Word, x ≠ 0 → fDiv x x = .ok 1) ∧
  ∀ x : Word, x ≠ 0 → x ≠ minInt32 → fDiv x (-x) = .ok 0xFFFFFFFF#32

/-! ### The subtractor and SUB -/

/-- R84: the accepting step of `SUB`: the first edge case, `~b == 0`, loads `(1, 0)`. -/
def Obligations.SubAcceptLoadsTheComplement : Prop :=
  ∀ (a b : Word) (s : State), s.free = true →
    ∃ t v, exec (.sub a b) s = .next t ∧ t.ports = s.ports ∧ t.host = s.host ∧
      (b ≠ 0xFFFFFFFF#32 →
        t.regs = { s.regs with phase := .subNeg, err := false, res := v, sa := a, xa := ~~~b, xb := 1 }) ∧
      (b = 0xFFFFFFFF#32 →
        t.regs = { s.regs with phase := .subNeg, err := false, res := v, sa := a, xa := 1, xb := 0 })

/-- R85: a step in `SUB_NEG`: the hand-over, which reads `SA` and the old `XA`, or one iteration. -/
def Obligations.SubNegStepHandsOver : Prop :=
  ∀ s : State, s.phase = .subNeg → s.ports.rst = false →
    ∃ t, step s = .next t ∧
      (s.xb = 0 → s.xa = 0 → t.regs = { s.regs with phase := .subRun, xa := s.sa, xb := 0 }) ∧
      (s.xb = 0 → s.xa ≠ 0 → s.sa = 0 → t.regs = { s.regs with phase := .subRun, xa := s.xa, xb := 0 }) ∧
      (s.xb = 0 → s.xa ≠ 0 → s.sa ≠ 0 → t.regs = { s.regs with phase := .subRun, xa := s.sa, xb := s.xa }) ∧
      (s.xb ≠ 0 → t.regs = { s.regs with xa := s.xa ^^^ s.xb, xb := (s.xa &&& s.xb) <<< 1 })

/-- R88: the first pass of `SUB` ends, while `rst` stays 0 in `n1` iterations after the accepting step, with the two's-complement negation of
`b` in `XA`, and one more step hands it over to the second pass. -/
def Obligations.SubFirstPassNegates : Prop :=
  ∀ (a b : Word) (s : State), s.free = true → ResetLow s →
    ∃ t u v, exec (.sub a b) s = .next t ∧ run (adderIters (~~~b) 1) t = .next u ∧ u.phase = .subNeg ∧
      u.xb = 0 ∧ u.xa = -b ∧ u.sa = a ∧ run (adderIters (~~~b) 1 + 1) t = .next v ∧ v.phase = .subRun ∧
      v.xa + v.xb = a - b

/-- R89: the step count of `SUB`: the two iteration counts, the bounds, and that the count is that of the machine. -/
def Obligations.SubStepCount : Prop :=
  ∀ a b : Word,
    (b = 0xFFFFFFFF#32 → adderIters (~~~b) 1 = 0) ∧ (b = 0 → adderIters (~~~b) 1 = 32) ∧
    (b ≠ 0xFFFFFFFF#32 → b ≠ 0 → adderIters (~~~b) 1 = tz b + 1) ∧
    (b = 0 ∨ a = 0 → adderIters a (-b) = 0) ∧
    (b ≠ 0 → a ≠ 0 → 1 ≤ adderIters a (-b) ∧ adderIters a (-b) ≤ 32 - tz b) ∧
    adderIters (~~~b) 1 + adderIters a (-b) ≤ 33 ∧ 3 ≤ subSteps a b ∧ subSteps a b ≤ 36 ∧
    ∀ s : State, s.free = true → Requests (.sub a b) s → ResetLow s →
      (∀ k, 1 ≤ k → k < subSteps a b → ∃ t, run k s = .next t ∧ t.isDone = false) ∧
      ∃ t, run (subSteps a b) s = .next t ∧ t.isDone = true

/-- R83: `SUB a, b` completes: from its accepting step on, in `N - 1` further steps, the block is in `DONE` with
`Ok((a - b) mod 2^32)`, while `rst` stays 0; that is `ADD a, v` for `v` the result of `ADD ~b, 1`; only `SA`, `XA`, `XB`, `RES`, `PHASE`
and `ERR` are written. -/
def Obligations.SubCommandCompletes : Prop :=
  ∀ (a b : Word) (s : State), s.free = true → ResetLow s →
    encode (.sub a b) = 0b10#2 ++ (a ++ b) ∧
    (∀ v, fAdd (~~~b) 1 = .ok v → fAdd a v = fSub a b) ∧
    ∃ t u, exec (.sub a b) s = .next t ∧ run (subSteps a b - 1) t = .next u ∧
      u.regs = { s.regs with phase := .done, err := false, res := a - b, sa := a, xa := u.xa, xb := u.xb } ∧
      u.outcome = some (.ok (a - b)) ∧
      (a - b).toInt =
        (if a.toInt - b.toInt > 2 ^ 31 - 1 then a.toInt - b.toInt - 2 ^ 32
         else if a.toInt - b.toInt < -(2 ^ 31) then a.toInt - b.toInt + 2 ^ 32
         else a.toInt - b.toInt)

/-- R91: the laws of `SUB`. -/
def Obligations.SubLaws : Prop :=
  (∀ a b : Word, fSub a 0 = .ok a ∧ fSub a a = .ok 0 ∧ fSub a b = .ok (BitVec.ofInt 32 (a.toNat - b.toNat))) ∧
  (∀ a b d : Word, fSub a b = .ok d → fAdd d b = .ok a) ∧
  ∀ a b d : Word, fSub a b = .ok d → fSub b a = .ok (-d)

/-- R90: the corner-case table of `SUB`; `fAdd (~b) 1` is its column `negated_b`. -/
def Obligations.SubCornerCases : Prop :=
  (∀ x : Word, fSub x 0 = .ok x ∧ fSub x x = .ok 0 ∧ fSub 0 x = .ok (-x)) ∧ fAdd (~~~0#32) 1 = .ok 0 ∧
  (∀ x : Word, fSub x minInt32 = .ok (x ^^^ minInt32)) ∧ fAdd (~~~minInt32) 1 = .ok minInt32 ∧
  fSub 0 minInt32 = .ok minInt32 ∧ fSub minInt32 minInt32 = .ok 0 ∧
  fSub maxInt32 minInt32 = .ok 0xFFFFFFFF#32 ∧ fSub 0xFFFFFFFF#32 minInt32 = .ok maxInt32 ∧
  fSub minInt32 1 = .ok maxInt32 ∧ fAdd (~~~1#32) 1 = .ok 0xFFFFFFFF#32 ∧
  fSub maxInt32 0xFFFFFFFF#32 = .ok minInt32 ∧ fAdd (~~~0xFFFFFFFF#32) 1 = .ok 1 ∧
  fSub 5#32 8#32 = .ok 0xFFFFFFFD#32 ∧ fAdd (~~~8#32) 1 = .ok 0xFFFFFFF8#32

/-! ### The whole block -/

/-- R24, R75, R76: every step keeps the invariant, whatever the host does. -/
def Obligations.StepKeepsTheInvariant : Prop :=
  ∀ s t : State, BlockInv s → step s = .next t → BlockInv t

/-- The invariant holds in the state after reset. -/
def Obligations.InvariantHoldsAtReset : Prop :=
  BlockInv State.reset

/-- R116: level M computes level F. From any free state, whatever its other registers hold, a request of any command is
followed by `N - 1` steps with the block busy and then by `DONE` with the outcome that level F gives, where `N` depends
on the command alone and has the rule's bound, whatever the host has on the ports meanwhile except `rst`. -/
def Obligations.EveryCommandEndsWithItsOutcome : Prop :=
  ∀ i : Instr, 1 ≤ stepCount i ∧ stepCount i ≤ stepBound i ∧
    ∀ s : State, s.free = true → Requests i s → ResetLow s →
      (∀ k, 1 ≤ k → k < stepCount i →
        ∃ t, run k s = .next t ∧ t.busy = true ∧ t.isDone = false ∧ t.err = false) ∧
      ∃ t, run (stepCount i) s = .next t ∧ t.busy = false ∧ t.isDone = true ∧
        t.outcome = some (levelF i) ∧ (t.err = true ↔ levelF i = .divisionByZero)

/-- R32: a command's observable course depends on the command alone: two free states that request the same command, with
any registers, any outcome before and any later port values, show the same `busy`, `done` and `err` after each of the
command's steps, and the same outcome. -/
def Obligations.OutcomeDependsOnTheCommandAlone : Prop :=
  ∀ (i : Instr) (s t : State), s.free = true → t.free = true → Requests i s → Requests i t → ResetLow s → ResetLow t →
    ∀ k, 1 ≤ k → k ≤ stepCount i →
      ∃ s' t', run k s = .next s' ∧ run k t = .next t' ∧ s'.status = t'.status ∧ s'.outcome = t'.outcome

/-- R117: a block that is busy, in any state that meets the invariant, reaches `DONE` within 529 further steps while
`rst` stays 0. -/
def Obligations.EveryBusyBlockFinishes : Prop :=
  ∀ s : State, BlockInv s → s.busy = true → ResetLow s → ∃ n t, n ≤ 529 ∧ run n s = .next t ∧ t.isDone = true

/-- R111: a host that holds `start == 1` with the same command has it executed again and again, every time with the same
outcome; the step after each `DONE` accepts it anew. -/
def Obligations.HeldStartRepeatsTheCommand : Prop :=
  ∀ (i : Instr) (s : State), s.free = true → Requests i s → (∀ p ∈ s.host, p = s.ports) →
    ∀ m, ∃ t, run ((m + 1) * stepCount i) s = .next t ∧ t.isDone = true ∧ t.outcome = some (levelF i) ∧
      Requests i t ∧ step t = afterEdge (exec i t)

/-- R96, R52: `DIV` with divisor 0 has the outcome `Err(DivisionByZero)`, every other command ends with a number, and all
end by themselves, in the command's own number of steps, which is at most 530. -/
def Obligations.OnlyDivisionByZeroFails : Prop :=
  ∀ i : Instr, (levelF i = .divisionByZero ↔ ∃ a, i = .div a 0) ∧
    ∀ s : State, s.free = true → Requests i s → ResetLow s →
      ∃ t, stepCount i ≤ 530 ∧ run (stepCount i) s = .next t ∧ t.isDone = true ∧ ((∃ v, t.result? = some v) ↔ ¬∃ a, i = .div a 0)

/-- R42, R105: the instances of a system share nothing: a step of one leaves every other as it is and depends on its own
state alone, and steps of different instances may be taken in either order. -/
def Obligations.InstancesAreIndependent : Prop :=
  ∀ (n : Nat) (j k : Fin n) (v v' : System n), j ≠ k → System.stepAt j v = .next v' →
    step v[j] = .next v'[j] ∧ v'[k] = v[k] ∧
    ∀ w, System.stepAt k v' = .next w → ∃ u, System.stepAt k v = .next u ∧ System.stepAt j u = .next w

/-- R5, R76, R116: the machine with `W_WIDE` as its argument. At the default width its step is `step`, and at every width
from 34 up, from any free state, every command takes the same number of steps, is busy until the last of them, and ends
with the outcome that level F gives. -/
def Obligations.EveryWidthHasTheSameOutcomes : Prop :=
  (∀ s : State, step s = stepAt s) ∧
  ∀ (w : Nat) (i : Instr) (s : State w), Config.wWideMin ≤ w → s.free = true → Requests i s → ResetLow s →
    (∀ k, 1 ≤ k → k < stepCount i →
      ∃ t, runAt k s = .next t ∧ t.busy = true ∧ t.isDone = false ∧ t.err = false) ∧
    ∃ t, runAt (stepCount i) s = .next t ∧ t.busy = false ∧ t.isDone = true ∧ t.outcome = some (levelF i)
end

