-- ==== Sys2Proof/Laws/State.lean ====
section
/-! SUPPORT. Laws/State.lean: one lemma per field per named update of State, each true by rfl, and what the named updates
do to the complete register state of R17. -/

namespace Sys2Proof.Machine

variable {w : Nat} (s : State w)

/-! `dropOutcome` -/

@[simp] theorem dropOutcome_phase : (dropOutcome s).phase = s.phase := rfl
@[simp] theorem dropOutcome_err : (dropOutcome s).err = false := rfl
@[simp] theorem dropOutcome_res : (dropOutcome s).res = Config.freeWord .res s.inst s.draws := rfl
@[simp] theorem dropOutcome_xa : (dropOutcome s).xa = s.xa := rfl
@[simp] theorem dropOutcome_xb : (dropOutcome s).xb = s.xb := rfl
@[simp] theorem dropOutcome_sa : (dropOutcome s).sa = s.sa := rfl
@[simp] theorem dropOutcome_div : (dropOutcome s).div = s.div := rfl
@[simp] theorem dropOutcome_ports : (dropOutcome s).ports = s.ports := rfl
@[simp] theorem dropOutcome_host : (dropOutcome s).host = s.host := rfl
@[simp] theorem dropOutcome_inst : (dropOutcome s).inst = s.inst := rfl
@[simp] theorem dropOutcome_draws : (dropOutcome s).draws = s.draws + 1 := rfl
theorem dropOutcome_regs :
    (dropOutcome s).regs = ⟨s.phase, false, Config.freeWord .res s.inst s.draws, s.xa, s.xb, s.sa, s.div⟩ := rfl

/-! `raiseDivisionByZero` -/

@[simp] theorem raiseDivisionByZero_phase : (raiseDivisionByZero s).phase = .done := rfl
@[simp] theorem raiseDivisionByZero_err : (raiseDivisionByZero s).err = true := rfl
@[simp] theorem raiseDivisionByZero_res : (raiseDivisionByZero s).res = s.res := rfl
@[simp] theorem raiseDivisionByZero_xa : (raiseDivisionByZero s).xa = s.xa := rfl
@[simp] theorem raiseDivisionByZero_xb : (raiseDivisionByZero s).xb = s.xb := rfl
@[simp] theorem raiseDivisionByZero_sa : (raiseDivisionByZero s).sa = s.sa := rfl
@[simp] theorem raiseDivisionByZero_div : (raiseDivisionByZero s).div = s.div := rfl
@[simp] theorem raiseDivisionByZero_ports : (raiseDivisionByZero s).ports = s.ports := rfl
@[simp] theorem raiseDivisionByZero_host : (raiseDivisionByZero s).host = s.host := rfl
@[simp] theorem raiseDivisionByZero_inst : (raiseDivisionByZero s).inst = s.inst := rfl
@[simp] theorem raiseDivisionByZero_draws : (raiseDivisionByZero s).draws = s.draws := rfl
theorem raiseDivisionByZero_regs :
    (raiseDivisionByZero s).regs = ⟨.done, true, s.res, s.xa, s.xb, s.sa, s.div⟩ := rfl

/-! `finish` -/

@[simp] theorem finish_phase (v : Word) : (finish v s).phase = .done := rfl
@[simp] theorem finish_err (v : Word) : (finish v s).err = s.err := rfl
@[simp] theorem finish_res (v : Word) : (finish v s).res = v := rfl
@[simp] theorem finish_xa (v : Word) : (finish v s).xa = s.xa := rfl
@[simp] theorem finish_xb (v : Word) : (finish v s).xb = s.xb := rfl
@[simp] theorem finish_sa (v : Word) : (finish v s).sa = s.sa := rfl
@[simp] theorem finish_div (v : Word) : (finish v s).div = s.div := rfl
@[simp] theorem finish_ports (v : Word) : (finish v s).ports = s.ports := rfl
@[simp] theorem finish_host (v : Word) : (finish v s).host = s.host := rfl
@[simp] theorem finish_inst (v : Word) : (finish v s).inst = s.inst := rfl
@[simp] theorem finish_draws (v : Word) : (finish v s).draws = s.draws := rfl
theorem finish_regs (v : Word) :
    (finish v s).regs = ⟨.done, s.err, v, s.xa, s.xb, s.sa, s.div⟩ := rfl

/-! `enter` -/

@[simp] theorem enter_phase (p : Phase) : (enter p s).phase = p := rfl
@[simp] theorem enter_err (p : Phase) : (enter p s).err = s.err := rfl
@[simp] theorem enter_res (p : Phase) : (enter p s).res = s.res := rfl
@[simp] theorem enter_xa (p : Phase) : (enter p s).xa = s.xa := rfl
@[simp] theorem enter_xb (p : Phase) : (enter p s).xb = s.xb := rfl
@[simp] theorem enter_sa (p : Phase) : (enter p s).sa = s.sa := rfl
@[simp] theorem enter_div (p : Phase) : (enter p s).div = s.div := rfl
@[simp] theorem enter_ports (p : Phase) : (enter p s).ports = s.ports := rfl
@[simp] theorem enter_host (p : Phase) : (enter p s).host = s.host := rfl
@[simp] theorem enter_inst (p : Phase) : (enter p s).inst = s.inst := rfl
@[simp] theorem enter_draws (p : Phase) : (enter p s).draws = s.draws := rfl
theorem enter_regs (p : Phase) :
    (enter p s).regs = ⟨p, s.err, s.res, s.xa, s.xb, s.sa, s.div⟩ := rfl

/-! `setAdder` -/

@[simp] theorem setAdder_phase (x : Word × Word) : (setAdder x s).phase = s.phase := rfl
@[simp] theorem setAdder_err (x : Word × Word) : (setAdder x s).err = s.err := rfl
@[simp] theorem setAdder_res (x : Word × Word) : (setAdder x s).res = s.res := rfl
@[simp] theorem setAdder_xa (x : Word × Word) : (setAdder x s).xa = x.1 := rfl
@[simp] theorem setAdder_xb (x : Word × Word) : (setAdder x s).xb = x.2 := rfl
@[simp] theorem setAdder_sa (x : Word × Word) : (setAdder x s).sa = s.sa := rfl
@[simp] theorem setAdder_div (x : Word × Word) : (setAdder x s).div = s.div := rfl
@[simp] theorem setAdder_ports (x : Word × Word) : (setAdder x s).ports = s.ports := rfl
@[simp] theorem setAdder_host (x : Word × Word) : (setAdder x s).host = s.host := rfl
@[simp] theorem setAdder_inst (x : Word × Word) : (setAdder x s).inst = s.inst := rfl
@[simp] theorem setAdder_draws (x : Word × Word) : (setAdder x s).draws = s.draws := rfl
theorem setAdder_regs (x : Word × Word) :
    (setAdder x s).regs = ⟨s.phase, s.err, s.res, x.1, x.2, s.sa, s.div⟩ := rfl

/-! `setDiv` -/

@[simp] theorem setDiv_phase (d : DivRegs w) : (setDiv d s).phase = s.phase := rfl
@[simp] theorem setDiv_err (d : DivRegs w) : (setDiv d s).err = s.err := rfl
@[simp] theorem setDiv_res (d : DivRegs w) : (setDiv d s).res = s.res := rfl
@[simp] theorem setDiv_xa (d : DivRegs w) : (setDiv d s).xa = s.xa := rfl
@[simp] theorem setDiv_xb (d : DivRegs w) : (setDiv d s).xb = s.xb := rfl
@[simp] theorem setDiv_sa (d : DivRegs w) : (setDiv d s).sa = s.sa := rfl
@[simp] theorem setDiv_div (d : DivRegs w) : (setDiv d s).div = d := rfl
@[simp] theorem setDiv_ports (d : DivRegs w) : (setDiv d s).ports = s.ports := rfl
@[simp] theorem setDiv_host (d : DivRegs w) : (setDiv d s).host = s.host := rfl
@[simp] theorem setDiv_inst (d : DivRegs w) : (setDiv d s).inst = s.inst := rfl
@[simp] theorem setDiv_draws (d : DivRegs w) : (setDiv d s).draws = s.draws := rfl
theorem setDiv_regs (d : DivRegs w) :
    (setDiv d s).regs = ⟨s.phase, s.err, s.res, s.xa, s.xb, s.sa, d⟩ := rfl

/-! `resetAction` -/

@[simp] theorem resetAction_phase : (resetAction s).phase = .idle := rfl
@[simp] theorem resetAction_err : (resetAction s).err = false := rfl
@[simp] theorem resetAction_res : (resetAction s).res = Config.freeWord .res s.inst s.draws := rfl
@[simp] theorem resetAction_xa : (resetAction s).xa = Config.freeWord .xa s.inst s.draws := rfl
@[simp] theorem resetAction_xb : (resetAction s).xb = Config.freeWord .xb s.inst s.draws := rfl
@[simp] theorem resetAction_sa : (resetAction s).sa = Config.freeWord .sa s.inst s.draws := rfl
@[simp] theorem resetAction_div : (resetAction s).div = freeDiv s.inst s.draws := rfl
@[simp] theorem resetAction_ports : (resetAction s).ports = s.ports := rfl
@[simp] theorem resetAction_host : (resetAction s).host = s.host := rfl
@[simp] theorem resetAction_inst : (resetAction s).inst = s.inst := rfl
@[simp] theorem resetAction_draws : (resetAction s).draws = s.draws + 1 := rfl
theorem resetAction_regs :
    (resetAction s).regs = ⟨.idle, false, Config.freeWord .res s.inst s.draws, Config.freeWord .xa s.inst s.draws, Config.freeWord .xb s.inst s.draws, Config.freeWord .sa s.inst s.draws, freeDiv s.inst s.draws⟩ := rfl

/-! `regs` -/

@[simp] theorem State.regs_phase : s.regs.phase = s.phase := rfl
@[simp] theorem State.regs_err : s.regs.err = s.err := rfl
@[simp] theorem State.regs_res : s.regs.res = s.res := rfl
@[simp] theorem State.regs_xa : s.regs.xa = s.xa := rfl
@[simp] theorem State.regs_xb : s.regs.xb = s.xb := rfl
@[simp] theorem State.regs_sa : s.regs.sa = s.sa := rfl
@[simp] theorem State.regs_div : s.regs.div = s.div := rfl

/-- Two states with the same registers differ in the model's own fields only. -/
theorem State.regs_eq_iff (s t : State w) :
    s.regs = t.regs ↔ s.phase = t.phase ∧ s.err = t.err ∧ s.res = t.res ∧ s.xa = t.xa ∧ s.xb = t.xb ∧
      s.sa = t.sa ∧ s.div = t.div := by
  simp [State.regs]

/-! `present` (withFetchWord) and the state after reset -/

@[simp] theorem present_ports (p : PortIn) : (present p s).ports = p := rfl
@[simp] theorem present_host (p : PortIn) : (present p s).host = s.host := rfl
@[simp] theorem present_err (p : PortIn) : (present p s).err = s.err := rfl
@[simp] theorem present_res (p : PortIn) : (present p s).res = s.res := rfl
@[simp] theorem present_xa (p : PortIn) : (present p s).xa = s.xa := rfl
@[simp] theorem present_xb (p : PortIn) : (present p s).xb = s.xb := rfl
@[simp] theorem present_sa (p : PortIn) : (present p s).sa = s.sa := rfl
@[simp] theorem present_div (p : PortIn) : (present p s).div = s.div := rfl
@[simp] theorem present_inst (p : PortIn) : (present p s).inst = s.inst := rfl
@[simp] theorem present_draws (p : PortIn) : (present p s).draws = s.draws := rfl

@[simp] theorem resetOf_phase (k : Nat) : (State.resetOf k : State w).phase = .idle := rfl
@[simp] theorem resetOf_err (k : Nat) : (State.resetOf k : State w).err = false := rfl
@[simp] theorem resetOf_ports (k : Nat) : (State.resetOf k : State w).ports = PortIn.quiet := rfl
@[simp] theorem resetOf_host (k : Nat) : (State.resetOf k : State w).host = [] := rfl
@[simp] theorem resetOf_inst (k : Nat) : (State.resetOf k : State w).inst = k := rfl

@[simp] theorem reset_phase : State.reset.phase = .idle := rfl
@[simp] theorem reset_err : State.reset.err = false := rfl
@[simp] theorem reset_ports : State.reset.ports = PortIn.quiet := rfl
@[simp] theorem reset_host : State.reset.host = [] := rfl

/-! The phases and the output ports -/

/-- A state is free exactly in `IDLE` and `DONE` (R21). -/
theorem State.free_iff : s.free = true ↔ s.phase = .idle ∨ s.phase = .done := by
  cases h : s.phase <;> simp [State.free, State.busy, Phase.working, h]

/-- A state is busy exactly when it is not free (R16). -/
theorem State.busy_eq_not_free : s.busy = !s.free := by simp [State.free]

theorem State.isDone_iff : s.isDone = true ↔ s.phase = .done := by simp [State.isDone]

theorem State.outcome_of_done (h : s.phase = .done) :
    s.outcome = some (if s.err then .divisionByZero else .ok s.res) := by
  cases he : s.err <;> simp [State.outcome, State.isDone, h, he]

theorem State.outcome_of_not_done (h : s.phase ≠ .done) : s.outcome = none := by
  simp [State.outcome, State.isDone, h]

end Sys2Proof.Machine
end

