-- ==== Sys2Proof/Laws/Operands.lean ====
section
/-! SUPPORT. Laws/Operands.lean: one lemma for each operation on operands: the adder's load and iteration (R57, R58, R61,
R62), the absolute value (R70), the narrowing (R74). -/

namespace Sys2Proof.Machine

/-! The adder -/

/-- What `AdderLoad` can load (R57): a finished pair with the sum in it, or the pair itself. -/
theorem adderLoad_cases (x y : Word) :
    (adderLoad x y = (x + y, 0) ∧ (x = 0 ∨ y = 0)) ∨ (adderLoad x y = (x, y) ∧ x ≠ 0 ∧ y ≠ 0) := by
  unfold adderLoad
  split
  · simp_all
  · split <;> simp_all

theorem adderLoad_sum (x y : Word) : (adderLoad x y).1 + (adderLoad x y).2 = x + y := by
  rcases adderLoad_cases x y with ⟨h, -⟩ | ⟨h, -⟩ <;> simp [h]

@[simp] theorem adderIter_fst (x y : Word) : (adderIter x y).1 = x ^^^ y := rfl

@[simp] theorem adderIter_snd (x y : Word) : (adderIter x y).2 = (x &&& y) <<< 1 := rfl

/-- The carry mask of the next iteration, bit by bit (R58). -/
theorem adderIter_carry_bit (x y : Word) (i : Nat) :
    (adderIter x y).2.getLsbD (i + 1) = (decide (i + 1 < 32) && (x.getLsbD i && y.getLsbD i)) := by
  simp [BitVec.getLsbD_shiftLeft]

/-- `x + y = (x ^ y) + 2 * (x & y)` on natural numbers (R61), by the binary digits from the least significant up. -/
theorem nat_add_eq_xor_add_and (n : Nat) : ∀ x y : Nat, x ≤ n → x + y = (x ^^^ y) + 2 * (x &&& y) := by
  induction n using Nat.strong_induction_on with
  | _ n ih =>
    intro x y hx
    rcases Nat.eq_zero_or_pos x with rfl | hp
    · simp
    · have h := ih (x / 2) (by omega) (x / 2) (y / 2) le_rfl
      have hxor : (x ^^^ y) / 2 = x / 2 ^^^ y / 2 := Nat.xor_div_two
      have hand : (x &&& y) / 2 = x / 2 &&& y / 2 := Nat.and_div_two
      have hxor' : (x ^^^ y) % 2 = (x + y) % 2 := Nat.xor_mod_two_eq
      have hand' : (x &&& y) % 2 = x % 2 &&& y % 2 := Nat.and_mod_two_pow (n := 1)
      rcases Nat.mod_two_eq_zero_or_one x with a | a <;> rcases Nat.mod_two_eq_zero_or_one y with b | b <;>
        simp only [a, b, Nat.reduceAnd] at hand' <;> omega

/-- An iteration keeps the sum (R61). -/
theorem adderIter_sum (x y : Word) : (adderIter x y).1 + (adderIter x y).2 = x + y := by
  apply BitVec.eq_of_toNat_eq
  have h := nat_add_eq_xor_add_and _ x.toNat y.toNat le_rfl
  simp only [adderIter_fst, adderIter_snd, BitVec.toNat_add, BitVec.toNat_xor, BitVec.toNat_shiftLeft,
    BitVec.toNat_and, Nat.shiftLeft_eq]
  omega

/-- The low `k` bits of `v` are 0: what every iteration raises by one (R62). -/
def LowZero (k : Nat) (v : Word) : Prop := ∀ i, i < k → v.getLsbD i = false

theorem LowZero.zero (v : Word) : LowZero 0 v := by intro i h; omega

theorem LowZero.adderIter {k : Nat} {x y : Word} (h : LowZero k y) : LowZero (k + 1) (adderIter x y).2 := by
  intro i hi
  cases i with
  | zero => simp
  | succ i => rw [adderIter_carry_bit, h i (by omega)]; simp

/-- A carry mask with 32 low zeros is 0 (R62). -/
theorem LowZero.eq_zero {k : Nat} {v : Word} (h : LowZero k v) (hk : 32 ≤ k) : v = 0 := by
  apply BitVec.eq_of_getLsbD_eq
  intro i hi
  simpa using h i (by omega)

end Sys2Proof.Machine
end

