-- ==== Sys2Proof/Laws/Step.lean ====
section
/-! SUPPORT. Laws/Step.lean: one lemma for each thing a step can do, which later proofs cite instead of unfolding `stepAt`,
and the lemmas about runs and about the host's side. They hold at every width of the divider; `step_eq_stepAt`,
`run_eq_runAt` and `exec_eq_execAt` bring a claim about the block itself to them. -/

namespace Sys2Proof.Machine

variable {w : Nat}

/-! The host's move -/

@[simp] theorem hostMove_phase (s : State w) : (hostMove s).phase = s.phase := by unfold hostMove; split <;> rfl
@[simp] theorem hostMove_err (s : State w) : (hostMove s).err = s.err := by unfold hostMove; split <;> rfl
@[simp] theorem hostMove_res (s : State w) : (hostMove s).res = s.res := by unfold hostMove; split <;> rfl
@[simp] theorem hostMove_xa (s : State w) : (hostMove s).xa = s.xa := by unfold hostMove; split <;> rfl
@[simp] theorem hostMove_xb (s : State w) : (hostMove s).xb = s.xb := by unfold hostMove; split <;> rfl
@[simp] theorem hostMove_sa (s : State w) : (hostMove s).sa = s.sa := by unfold hostMove; split <;> rfl
@[simp] theorem hostMove_div (s : State w) : (hostMove s).div = s.div := by unfold hostMove; split <;> rfl
@[simp] theorem hostMove_inst (s : State w) : (hostMove s).inst = s.inst := by unfold hostMove; split <;> rfl
@[simp] theorem hostMove_draws (s : State w) : (hostMove s).draws = s.draws := by unfold hostMove; split <;> rfl
@[simp] theorem hostMove_host (s : State w) : (hostMove s).host = s.host.tail := by
  unfold hostMove; split <;> simp_all

theorem hostMove_ports (s : State w) : (hostMove s).ports = s.host.head?.getD s.ports := by
  unfold hostMove; split <;> simp_all

@[simp] theorem hostMove_of_nil (s : State w) (h : s.host = []) : hostMove s = s := by simp [hostMove, h]

theorem hostMove_regs (s : State w) : (hostMove s).regs = s.regs := by simp [State.regs]

/-- A property of every value the host has or will drive is kept by its move. -/
theorem hostMove_forall (P : PortIn → Prop) (s : State w) (h : P s.ports ∧ ∀ p ∈ s.host, P p) :
    P (hostMove s).ports ∧ ∀ p ∈ (hostMove s).host, P p := by
  obtain ⟨h1, h2⟩ := h
  cases hh : s.host with
  | nil => simp [hh, h1]
  | cons p rest =>
    simp only [hh, List.mem_cons, forall_eq_or_imp] at h2
    simp only [hostMove_ports, hostMove_host, hh, List.head?_cons, Option.getD_some, List.tail_cons]
    exact h2

/-! The meanings and the accepting step -/

/-- Every legal command has a successor (R31, R52), and accepting it leaves the host's side alone. -/
theorem exec_next (i : Instr) (s : State w) : ∃ t, execAt i s = .next t ∧ t.ports = s.ports ∧ t.host = s.host := by
  cases i with
  | add a b => exact ⟨_, rfl, rfl, rfl⟩
  | sub a b => exact ⟨_, rfl, rfl, rfl⟩
  | div a b =>
    refine ⟨_, rfl, ?_, ?_⟩ <;> unfold divAccept <;> repeat' split
    all_goals rfl

/-- At the default width the dispatch of the step is the block's own. -/
theorem exec_eq_execAt : exec = execAt := by
  funext i s
  cases i <;> rfl

/-- The decoder on a raw triple rejects the reserved `op` and nothing else (R51). -/
theorem decodeCommand_rejected_iff (c : Command) : decodeCommand c = .rejected .reservedOp ↔ c.op = 0b11#2 := by
  obtain ⟨op, a, b⟩ := c
  revert op
  simp only [decodeCommand, opAdd, opDiv, opSub]
  intro op
  match op with
  | 0b00#2 => simp
  | 0b01#2 => simp
  | 0b10#2 => simp
  | 0b11#2 => simp

/-- The decoder on a raw triple answers a command or the one rejection (R51). -/
theorem decodeCommand_total (c : Command) :
    (∃ i, decodeCommand c = .command i) ∨ decodeCommand c = .rejected .reservedOp := by
  unfold decodeCommand
  repeat' split
  all_goals simp

@[simp] theorem decodeCommand_toCommand (i : Instr) : decodeCommand i.toCommand = .command i := by
  cases i <;> simp [decodeCommand, Instr.toCommand, opAdd, opDiv, opSub]

/-- A triple that decodes to a command is the triple the host drives for it. -/
theorem toCommand_of_decodeCommand {c : Command} {i : Instr} (h : decodeCommand c = .command i) : i.toCommand = c := by
  obtain ⟨op, a, b⟩ := c
  unfold decodeCommand at h
  split at h
  · cases h; simp_all [Instr.toCommand]
  · split at h
    · cases h; simp_all [Instr.toCommand]
    · split at h
      · cases h; simp_all [Instr.toCommand]
      · cases h

/-! The step, case by case (R21) -/

variable {s t : State w}

/-- What a step can do: the clock edge, then the host's move. -/
theorem step_next_iff : stepAt s = .next t ↔ ∃ u, clockEdge execAt s.ports s = .next u ∧ t = hostMove u := by
  unfold stepAt afterEdge
  cases clockEdge execAt s.ports s with
  | next u => simp [eq_comm]
  | fault r => simp
  | refused r => simp

theorem step_of_edge {u : State w} (h : clockEdge execAt s.ports s = .next u) : stepAt s = .next (hostMove u) := by
  simp [stepAt, afterEdge, h]

theorem step_reset (h : s.ports.rst = true) : stepAt s = .next (hostMove (resetAction s)) :=
  step_of_edge (by simp [clockEdge, h])

theorem edge_free {p : PortIn} (hf : s.free = true) (hr : p.rst = false) : clockEdge execAt p s = freeStep execAt p s := by
  rcases (State.free_iff s).1 hf with h | h <;> simp [clockEdge, hr, h]

theorem step_hold (hf : s.free = true) (hr : s.ports.rst = false) (hs : s.ports.start = false) :
    stepAt s = .next (hostMove s) :=
  step_of_edge (by simp [edge_free hf hr, freeStep, hs])

theorem step_accept (hf : s.free = true) (hr : s.ports.rst = false) (hs : s.ports.start = true) :
    stepAt s = afterEdge (accept execAt s.ports s) := by
  simp [stepAt, edge_free hf hr, freeStep, hs]

theorem step_request {i : Instr} (hf : s.free = true) (h : Requests i s) : stepAt s = afterEdge (execAt i s) := by
  obtain ⟨hr, hs, hc⟩ := h
  simp [step_accept hf hr hs, accept, hc]

theorem step_addRun (hp : s.phase = .addRun) (hr : s.ports.rst = false) :
    stepAt s = .next (hostMove (addRunStep s)) := step_of_edge (by simp [clockEdge, hr, hp])

theorem step_subNeg (hp : s.phase = .subNeg) (hr : s.ports.rst = false) :
    stepAt s = .next (hostMove (subNegStep s)) := step_of_edge (by simp [clockEdge, hr, hp])

theorem step_subRun (hp : s.phase = .subRun) (hr : s.ports.rst = false) :
    stepAt s = .next (hostMove (subRunStep s)) := step_of_edge (by simp [clockEdge, hr, hp])

theorem step_divOuter (hp : s.phase = .divOuter) (hr : s.ports.rst = false) :
    stepAt s = .next (hostMove (divOuterStep s)) := step_of_edge (by simp [clockEdge, hr, hp])

theorem step_divShift (hp : s.phase = .divShift) (hr : s.ports.rst = false) :
    stepAt s = .next (hostMove (divShiftStep s)) := step_of_edge (by simp [clockEdge, hr, hp])

theorem step_divFin (hp : s.phase = .divFin) (hr : s.ports.rst = false) :
    stepAt s = .next (hostMove (divFinStep s)) := step_of_edge (by simp [clockEdge, hr, hp])

/-- The work of a phase (R21), in the working phases. -/
def workStep (s : State w) : State w :=
  match s.phase with
  | .idle => s
  | .addRun => addRunStep s
  | .subNeg => subNegStep s
  | .subRun => subRunStep s
  | .divOuter => divOuterStep s
  | .divShift => divShiftStep s
  | .divFin => divFinStep s
  | .done => s

theorem step_busy (hb : s.busy = true) (hr : s.ports.rst = false) : stepAt s = .next (hostMove (workStep s)) := by
  cases hp : s.phase <;> simp [State.busy, Phase.working, hp] at hb
  · simp [step_addRun hp hr, workStep, hp]
  · simp [step_subNeg hp hr, workStep, hp]
  · simp [step_subRun hp hr, workStep, hp]
  · simp [step_divOuter hp hr, workStep, hp]
  · simp [step_divShift hp hr, workStep, hp]
  · simp [step_divFin hp hr, workStep, hp]

/-- Everything a step with a successor can have done (R21): reset, hold, the work of a phase, or an accepted command. -/
theorem step_cases (h : stepAt s = .next t) :
    (s.ports.rst = true ∧ t = hostMove (resetAction s)) ∨
    (s.ports.rst = false ∧ s.free = true ∧ s.ports.start = false ∧ t = hostMove s) ∨
    (s.ports.rst = false ∧ s.busy = true ∧ t = hostMove (workStep s)) ∨
    ∃ i u, s.free = true ∧ Requests i s ∧ execAt i s = .next u ∧ t = hostMove u := by
  cases hr : s.ports.rst with
  | true =>
    rw [step_reset hr] at h
    cases h
    exact .inl ⟨rfl, rfl⟩
  | false =>
    cases hf : s.free with
    | false =>
      have hb : s.busy = true := by simp [State.busy_eq_not_free, hf]
      rw [step_busy hb hr] at h
      cases h
      exact .inr (.inr (.inl ⟨rfl, hb, rfl⟩))
    | true =>
      cases hs : s.ports.start with
      | false =>
        rw [step_hold hf hr hs] at h
        cases h
        exact .inr (.inl ⟨rfl, rfl, rfl, rfl⟩)
      | true =>
        rw [step_accept hf hr hs] at h
        unfold accept at h
        rcases decodeCommand_total s.ports.command with ⟨i, hd⟩ | hd
        · obtain ⟨u, hu, -⟩ := exec_next i s
          simp only [hd, hu, afterEdge, Host.Outcome.next.injEq] at h
          exact .inr (.inr (.inr ⟨i, u, rfl, ⟨hr, hs, (toCommand_of_decodeCommand hd).symm⟩, hu, h.symm⟩))
        · simp [hd, afterEdge] at h

/-- When a step has no successor: an accepting step with the reserved `op`, and then it is refused (R51). -/
theorem step_refused (hf : s.free = true) (hr : s.ports.rst = false) (hs : s.ports.start = true)
    (ho : s.ports.op = 0b11#2) : stepAt s = .refused .reservedOp := by
  have hd : decodeCommand s.ports.command = .rejected .reservedOp := (decodeCommand_rejected_iff _).2 ho
  simp [step_accept hf hr hs, accept, hd, afterEdge]

/-! Runs -/

@[simp] theorem run_zero (s : State w) : runAt 0 s = .next s := rfl

theorem run_succ_of_step {n : Nat} (h : stepAt s = .next t) : runAt (n + 1) s = runAt n t := by simp [runAt, h]

/-- A runAt of `m + n` steps is a runAt of `m` steps and then one of `n`. -/
theorem run_add {m : Nat} (n : Nat) (h : runAt m s = .next t) : runAt (m + n) s = runAt n t := by
  induction m generalizing s with
  | zero =>
    simp only [run_zero, Host.Outcome.next.injEq] at h
    simp [h]
  | succ m ih =>
    rw [Nat.succ_add]
    cases hs : stepAt s with
    | next u =>
      rw [run_succ_of_step hs] at h ⊢
      exact ih h
    | fault r => simp [runAt, hs] at h
    | refused r => simp [runAt, hs] at h

/-- The block is the machine at the default width (R5). -/
theorem step_eq_stepAt : step = stepAt := by
  funext s
  simp [step, stepAt, exec_eq_execAt]

theorem run_eq_runAt : run = runAt := by
  funext n s
  induction n generalizing s with
  | zero => rfl
  | succ n ih =>
    simp only [run, runAt, step_eq_stepAt]
    cases stepAt s with
    | next t => exact ih t
    | fault r => rfl
    | refused r => rfl

/-- `run` is the host's own run of the machine. -/
theorem run_eq_core_run (n : Nat) (s : State) : run n s = Host.Core.run Sys2Proof.core n s := by
  induction n generalizing s with
  | zero => rfl
  | succ n ih =>
    cases hs : step s with
    | next t => simpa [run, hs, Host.Core.run, show Sys2Proof.core.step s = .next t from hs] using ih t
    | fault r => simp [run, hs, Host.Core.run, show Sys2Proof.core.step s = .fault r from hs]; rfl
    | refused r => simp [run, hs, Host.Core.run, show Sys2Proof.core.step s = .refused r from hs]; rfl

/-- The host's promise about `rst` is kept by its move, over any update that leaves the host's side alone. -/
theorem ResetLow.hostMove {u : State w} (h : ResetLow s) (hp : u.ports = s.ports) (hh : u.host = s.host) :
    ResetLow (hostMove u) :=
  hostMove_forall (fun p => p.rst = false) u (by rw [hp, hh]; exact h)

@[simp] theorem workStep_ports (s : State w) : (workStep s).ports = s.ports := by
  cases hp : s.phase <;> simp only [workStep, hp] <;>
    simp only [addRunStep, subNegStep, subRunStep, divOuterStep, divShiftStep, divFinStep] <;> (try split) <;> rfl

@[simp] theorem workStep_host (s : State w) : (workStep s).host = s.host := by
  cases hp : s.phase <;> simp only [workStep, hp] <;>
    simp only [addRunStep, subNegStep, subRunStep, divOuterStep, divShiftStep, divFinStep] <;> (try split) <;> rfl

/-- No step writes the number of the instance, so its free values stay apart from those of the others (assumption 21). -/
theorem step_keeps_inst (h : stepAt s = .next t) : t.inst = s.inst := by
  rcases step_cases h with ⟨-, rfl⟩ | ⟨-, -, -, rfl⟩ | ⟨-, -, rfl⟩ | ⟨i, u, -, -, hu, rfl⟩
  · simp
  · simp
  · rw [hostMove_inst]
    cases hp : s.phase <;> simp only [workStep, hp] <;>
      simp only [addRunStep, subNegStep, subRunStep, divOuterStep, divShiftStep, divFinStep] <;> (try split) <;> rfl
  · rw [hostMove_inst]
    cases i with
    | add a b => cases hu; rfl
    | sub a b => cases hu; rfl
    | div a b =>
      cases hu
      unfold divAccept
      repeat' split
      all_goals rfl

end Sys2Proof.Machine
end

