-- ==== Sys2Proof/Laws/Adder.lean ====
section
/-! SUPPORT. Laws/Adder.lean: the adder's loop as a whole (R60, R61, R62, R85, R86): how long it runs, what it leaves, and
that the block is busy meanwhile. -/

namespace Sys2Proof.Machine

variable {w : Nat}

/-- The three phases that run the adder's loop (R60, R85, R86). -/
def Phase.adding : Phase → Bool
  | .idle => false
  | .addRun => true
  | .subNeg => true
  | .subRun => true
  | .divOuter => false
  | .divShift => false
  | .divFin => false
  | .done => false

/-- A step with `XB != 0` in a phase that runs the adder is one iteration, whatever the phase (R58). -/
theorem step_iterate {s : State w} (ha : s.phase.adding = true) (hr : s.ports.rst = false) (hx : s.xb ≠ 0) :
    stepAt s = .next (hostMove (setAdder (adderIter s.xa s.xb) s)) := by
  cases hp : s.phase <;> simp only [hp, Phase.adding, Bool.false_eq_true] at ha
  · rw [step_addRun hp hr, addRunStep, if_neg hx]
  · rw [step_subNeg hp hr, subNegStep, if_neg hx]
  · rw [step_subRun hp hr, subRunStep, if_neg hx]

/-- The loop runs at most `32 - k` times on a carry mask whose low `k` bits are 0 (R62). -/
theorem adderItersUpTo_le {k : Nat} (f : Nat) (x y : Word) (h : LowZero k y) : adderItersUpTo f x y ≤ 32 - k := by
  induction f generalizing k x y with
  | zero => simp [adderItersUpTo]
  | succ f ih =>
    unfold adderItersUpTo
    split
    · omega
    · have hk : k < 32 := by
        by_contra hc
        exact absurd (h.eq_zero (by omega)) ‹¬y = 0›
      have := ih (adderIter x y).1 (adderIter x y).2 h.adderIter
      omega

/-- What the adder's loop leaves after its iterations: the same phase, `XB = 0`, the sum in `XA`, and every other
register as it was (R61). -/
structure LoopDone (s t : State w) : Prop where
  regs : t.regs = { s.regs with xa := s.xa + s.xb, xb := 0 }
  resetLow : ResetLow t

/-- The adder's loop, from any pair (R61, R62): it ends, it leaves the sum, and until then the phase does not change. -/
theorem adder_loop {k : Nat} (f : Nat) (s : State w) (hf : 33 ≤ f + k) (hk : LowZero k s.xb)
    (ha : s.phase.adding = true) (hr : ResetLow s) :
    (∃ t, runAt (adderItersUpTo f s.xa s.xb) s = .next t ∧ LoopDone s t) ∧
      ∀ j, j ≤ adderItersUpTo f s.xa s.xb → ∃ t, runAt j s = .next t ∧ t.phase = s.phase ∧ t.err = s.err := by
  induction f generalizing k s with
  | zero =>
    have hx : s.xb = 0 := hk.eq_zero (by omega)
    refine ⟨⟨s, rfl, by simp [State.regs, hx], hr⟩, ?_⟩
    intro j hj
    have hj0 : j = 0 := by simpa [adderItersUpTo] using hj
    exact ⟨s, by simp [hj0], rfl, rfl⟩
  | succ f ih =>
    by_cases hx : s.xb = 0
    · have hn : adderItersUpTo (f + 1) s.xa s.xb = 0 := by simp [adderItersUpTo, hx]
      rw [hn]
      refine ⟨⟨s, rfl, by simp [State.regs, hx], hr⟩, ?_⟩
      intro j hj
      exact ⟨s, by simp [Nat.le_zero.1 hj], rfl, rfl⟩
    · have hs := step_iterate ha hr.1 hx
      have hn : adderItersUpTo (f + 1) s.xa s.xb =
          adderItersUpTo f (adderIter s.xa s.xb).1 (adderIter s.xa s.xb).2 + 1 := by
        rw [adderItersUpTo, if_neg hx, Nat.add_comm]
      generalize hu : hostMove (setAdder (adderIter s.xa s.xb) s) = u at hs
      have hua : u.xa = (adderIter s.xa s.xb).1 := by simp [← hu]
      have hub : u.xb = (adderIter s.xa s.xb).2 := by simp [← hu]
      have hup : u.phase = s.phase := by simp [← hu]
      have hue : u.err = s.err := by simp [← hu]
      have hur : ResetLow u := hu ▸ hr.hostMove rfl rfl
      obtain ⟨⟨t, ht, hd⟩, hj⟩ :=
        ih (k := k + 1) u (by omega) (hub ▸ hk.adderIter) (hup ▸ ha) hur
      rw [hua, hub] at ht hj
      rw [hn]
      refine ⟨⟨t, by rw [run_succ_of_step hs, ht], ?_, hd.resetLow⟩, ?_⟩
      · rw [hd.regs, hua, hub, adderIter_sum]
        simp [State.regs, ← hu]
      · intro j hjn
        cases j with
        | zero => exact ⟨s, rfl, rfl, rfl⟩
        | succ j =>
          obtain ⟨v, hv, h1, h2⟩ := hj j (by omega)
          exact ⟨v, by rw [run_succ_of_step hs, hv], h1.trans hup, h2.trans hue⟩

end Sys2Proof.Machine
end

