-- ==== Sys2Proof/Laws/Decode.lean ====
section
/-! SUPPORT. Laws/Decode.lean: the fields of a written command word as numbers, and that writing and reading the fields undo
each other (R46, R48). -/

namespace Sys2Proof

/-- A written command word as a number: `op`, `a`, `b` at weights `2^64`, `2^32`, 1 (R46, R48). -/
theorem toNat_pack (c : Command) : (pack c).toNat = c.op.toNat * 2 ^ 64 + c.a.toNat * 2 ^ 32 + c.b.toNat := by
  have ha := c.a.isLt
  have hb := c.b.isLt
  unfold pack
  rw [BitVec.toNat_append, BitVec.toNat_append, ← Nat.shiftLeft_add_eq_or_of_lt hb,
    ← Nat.shiftLeft_add_eq_or_of_lt (by rw [Nat.shiftLeft_eq]; omega), Nat.shiftLeft_eq, Nat.shiftLeft_eq]
  omega

theorem toNat_unpack_op (w : CmdWord) : (unpack w).op.toNat = w.toNat / 2 ^ 64 := by
  have hw := w.isLt
  simp only [unpack, BitVec.extractLsb'_toNat, Nat.shiftRight_eq_div_pow]
  omega

theorem toNat_unpack_a (w : CmdWord) : (unpack w).a.toNat = w.toNat / 2 ^ 32 % 2 ^ 32 := by
  simp only [unpack, BitVec.extractLsb'_toNat, Nat.shiftRight_eq_div_pow]

theorem toNat_unpack_b (w : CmdWord) : (unpack w).b.toNat = w.toNat % 2 ^ 32 := by
  simp [unpack, BitVec.extractLsb'_toNat]

/-- Reading the fields of a word undoes writing them (R46). -/
theorem unpack_pack (c : Command) : unpack (pack c) = c := by
  have ho := toNat_unpack_op (pack c)
  have ha := toNat_unpack_a (pack c)
  have hb := toNat_unpack_b (pack c)
  have h1 := c.op.isLt
  have h2 := c.a.isLt
  have h3 := c.b.isLt
  rw [toNat_pack] at ho ha hb
  have e1 : (unpack (pack c)).op = c.op := BitVec.eq_of_toNat_eq (by omega)
  have e2 : (unpack (pack c)).a = c.a := BitVec.eq_of_toNat_eq (by omega)
  have e3 : (unpack (pack c)).b = c.b := BitVec.eq_of_toNat_eq (by omega)
  generalize unpack (pack c) = d at e1 e2 e3
  cases c; cases d; simp_all

/-- Writing the fields of a word undoes reading them: the three fields are the whole word (R46). -/
theorem pack_unpack (w : CmdWord) : pack (unpack w) = w := by
  apply BitVec.eq_of_toNat_eq
  rw [toNat_pack, toNat_unpack_op, toNat_unpack_a, toNat_unpack_b]
  omega

end Sys2Proof
end

