-- ==== Sys2Proof/Laws/Divider.lean ====
section
/-! SUPPORT. Laws/Divider.lean: the divider's datapath at every width from 34 up (R70 to R76): its values as natural numbers,
one round, the whole loop with its length (R78), and the same loop on the machine. -/

namespace Sys2Proof.Machine

/-! Values as natural numbers (R76) -/

section Values

variable {w : Nat}

/-- A wide value of magnitude at most `2^32` is its own signed reading (R76). -/
theorem toInt_eq_toNat_of_le (hw : 34 ≤ w) {x : BitVec w} (h : x.toNat ≤ 2 ^ 32) : x.toInt = x.toNat := by
  have h2 : (2 : Nat) ^ 34 ≤ 2 ^ w := Nat.pow_le_pow_right (by omega) hw
  rw [BitVec.toInt_eq_toNat_of_lt]
  omega

theorem sle_iff_toNat (hw : 34 ≤ w) {x y : BitVec w} (hx : x.toNat ≤ 2 ^ 32) (hy : y.toNat ≤ 2 ^ 32) :
    x.sle y = true ↔ x.toNat ≤ y.toNat := by
  simp [BitVec.sle, toInt_eq_toNat_of_le hw hx, toInt_eq_toNat_of_le hw hy]

/-- A shift of a value of at most `2^31` loses nothing (R76). -/
theorem toNat_shift_one (hw : 34 ≤ w) {x : BitVec w} (h : x.toNat ≤ 2 ^ 31) : (x <<< 1).toNat = 2 * x.toNat := by
  have h2 : (2 : Nat) ^ 34 ≤ 2 ^ w := Nat.pow_le_pow_right (by omega) hw
  rw [BitVec.toNat_shiftLeft, Nat.shiftLeft_eq, Nat.mod_eq_of_lt] <;> omega

theorem toNat_add_wide (hw : 34 ≤ w) {x y : BitVec w} (h : x.toNat + y.toNat ≤ 2 ^ 32) :
    (x + y).toNat = x.toNat + y.toNat := by
  have h2 : (2 : Nat) ^ 34 ≤ 2 ^ w := Nat.pow_le_pow_right (by omega) hw
  rw [BitVec.toNat_add, Nat.mod_eq_of_lt]
  omega

theorem toNat_one_wide (hw : 34 ≤ w) : (1 : BitVec w).toNat = 1 := by
  have h2 : (2 : Nat) ^ 34 ≤ 2 ^ w := Nat.pow_le_pow_right (by omega) hw
  simp only [BitVec.toNat_ofNat, BitVec.ofNat_eq_ofNat]
  exact Nat.mod_eq_of_lt (by omega)

/-- The absolute value, widened first (R70). -/
theorem toNat_absWide (hw : 34 ≤ w) (v : Word) : (absWide w v).toNat = v.toInt.natAbs := by
  have h2 : (2 : Nat) ^ 34 ≤ 2 ^ w := Nat.pow_le_pow_right (by omega) hw
  have hi : (v.signExtend w).toInt = v.toInt := BitVec.toInt_signExtend_of_le (by omega)
  have hn := BitVec.toInt_eq_toNat_cond (v.signExtend w)
  have hl := BitVec.le_toInt v
  have hu := BitVec.toInt_lt (x := v)
  unfold absWide absAt
  rw [BitVec.msb_eq_toInt, hi]
  have hlt := (v.signExtend w).isLt
  by_cases hv : v.toInt < 0
  · simp only [hv, decide_true, if_true, BitVec.toNat_neg]
    rw [hi] at hn
    split at hn
    · omega
    · have hp : ((2 ^ w : Nat) : Int) - (v.signExtend w).toNat = v.toInt.natAbs := by omega
      have hq : 2 ^ w - (v.signExtend w).toNat = v.toInt.natAbs := by omega
      rw [hq, Nat.mod_eq_of_lt]
      omega
  · simp only [hv, decide_false, Bool.false_eq_true, if_false]
    rw [hi] at hn
    split at hn <;> omega

theorem natAbs_toInt_le (v : Word) : v.toInt.natAbs ≤ 2 ^ 31 := by
  have hl := BitVec.le_toInt v
  have hu := BitVec.toInt_lt (x := v)
  omega

theorem natAbs_toInt_pos {v : Word} (h : v ≠ 0) : 1 ≤ v.toInt.natAbs := by
  have : v.toInt ≠ 0 := fun h0 => h (BitVec.eq_of_toInt_eq (by simpa using h0))
  omega

end Values

/-! The loop (R71, R72) -/

section Loop

variable {w : Nat}

/-- `n` steps of the two loops lead from `x` to `y`, the divider's loop phases being the only ones they are taken in. -/
inductive Loops : Nat → Phase × DivRegs w → Phase × DivRegs w → Prop where
  | nil (x) : Loops 0 x x
  | cons {n x y} : x.1 = .divOuter ∨ x.1 = .divShift → Loops n (divLoopStep x) y → Loops (n + 1) x y

theorem Loops.divLoop_eq {n : Nat} {x y : Phase × DivRegs w} (h : Loops n x y) : divLoop n x = y := by
  induction h with
  | nil => rfl
  | cons _ _ ih => simpa [divLoop] using ih

theorem Loops.trans {m n : Nat} {x y z : Phase × DivRegs w} (h : Loops m x y) (h' : Loops n y z) :
    Loops (m + n) x z := by
  induction h with
  | nil => simpa using h'
  | cons hp _ ih => rw [Nat.succ_add]; exact .cons hp (ih h')

/-- The registers of the divider as natural numbers, in `DIV_OUTER` (R75, R76). -/
structure OuterNat (d : DivRegs w) (B quo rem : Nat) : Prop where
  dvs_eq : d.dvs.toNat = B
  quo_eq : d.quo.toNat = quo
  rem_eq : d.rem.toNat = rem
  pos : 1 ≤ B
  bound : quo * B + rem ≤ 2 ^ 31
  boundB : B ≤ 2 ^ 31

/-- The registers of the divider as natural numbers, in `DIV_SHIFT` with the multiple `B * 2^k` (R75, R76). -/
structure ShiftNat (d : DivRegs w) (B quo rem k : Nat) : Prop extends OuterNat d B quo rem where
  tmp_eq : d.tmp.toNat = B * 2 ^ k
  mul_eq : d.mul.toNat = 2 ^ k
  le : B * 2 ^ k ≤ rem

theorem OuterNat.quo_le {d : DivRegs w} {B quo rem : Nat} (h : OuterNat d B quo rem) : quo ≤ 2 ^ 31 := by
  have := Nat.le_mul_of_pos_right quo h.pos
  have := h.bound
  omega

/-- One step in `DIV_SHIFT` (R72) on natural numbers. -/
theorem shift_step (hw : 34 ≤ w) {d : DivRegs w} {B quo rem k : Nat} (h : ShiftNat d B quo rem k) :
    (2 * (B * 2 ^ k) ≤ rem ∧ divLoopStep (.divShift, d) = (.divShift, d.shift) ∧
        ShiftNat d.shift B quo rem (k + 1)) ∨
      (rem < 2 * (B * 2 ^ k) ∧ divLoopStep (.divShift, d) = (.divOuter, d.subtract) ∧
        OuterNat d.subtract B (quo + 2 ^ k) (rem - B * 2 ^ k)) := by
  have hb := h.bound
  have hle := h.le
  have ht : d.tmp.toNat ≤ 2 ^ 31 := by rw [h.tmp_eq]; omega
  have hpow : 2 ^ k ≤ B * 2 ^ k := Nat.le_mul_of_pos_left _ h.pos
  have hs : (d.tmp <<< 1).toNat = 2 * (B * 2 ^ k) := by rw [toNat_shift_one hw ht, h.tmp_eq]
  have hfit : d.shiftFits = true ↔ 2 * (B * 2 ^ k) ≤ rem := by
    unfold DivRegs.shiftFits
    rw [sle_iff_toNat hw (by omega) (by rw [h.rem_eq]; omega), hs, h.rem_eq]
  by_cases hc : 2 * (B * 2 ^ k) ≤ rem
  · refine .inl ⟨hc, by simp [divLoopStep, hfit.2 hc], ?_⟩
    refine ⟨⟨h.dvs_eq, h.quo_eq, h.rem_eq, h.pos, hb, h.boundB⟩, ?_, ?_, ?_⟩
    · show (d.tmp <<< 1).toNat = _
      rw [hs, Nat.pow_succ]; ring
    · show (d.mul <<< 1).toNat = _
      rw [toNat_shift_one hw (by rw [h.mul_eq]; omega), h.mul_eq, Nat.pow_succ]; ring
    · rw [Nat.pow_succ]; linarith
  · have hf : d.shiftFits = false := by
      rw [← Bool.not_eq_true]; exact fun hx => hc (hfit.1 hx)
    refine .inr ⟨by omega, by simp [divLoopStep, hf], ?_⟩
    have hq := h.quo_le
    refine ⟨h.dvs_eq, ?_, ?_, h.pos, ?_, h.boundB⟩
    · show (d.quo + d.mul).toNat = _
      rw [toNat_add_wide hw (by rw [h.quo_eq, h.mul_eq]; omega), h.quo_eq, h.mul_eq]
    · show (d.rem - d.tmp).toNat = _
      rw [BitVec.toNat_sub_of_le (by rw [BitVec.le_def, h.tmp_eq, h.rem_eq]; exact hle), h.rem_eq, h.tmp_eq]
    · have : (quo + 2 ^ k) * B = quo * B + B * 2 ^ k := by ring
      omega

/-- One step in `DIV_OUTER` (R71) on natural numbers. -/
theorem outer_step (hw : 34 ≤ w) {d : DivRegs w} {B quo rem : Nat} (h : OuterNat d B quo rem) :
    (B ≤ rem ∧ divLoopStep (.divOuter, d) = (.divShift, d.startRound) ∧ ShiftNat d.startRound B quo rem 0) ∨
      (rem < B ∧ divLoopStep (.divOuter, d) = (.divFin, d)) := by
  have hb := h.bound
  have hB := h.boundB
  have ha : d.another = true ↔ B ≤ rem := by
    unfold DivRegs.another
    rw [sle_iff_toNat hw (by rw [h.dvs_eq]; omega) (by rw [h.rem_eq]; omega), h.dvs_eq, h.rem_eq]
  by_cases hc : B ≤ rem
  · refine .inl ⟨hc, by simp [divLoopStep, ha.2 hc], ⟨h.dvs_eq, h.quo_eq, h.rem_eq, h.pos, hb, hB⟩, ?_, ?_, ?_⟩
    · show d.dvs.toNat = _
      rw [h.dvs_eq]; simp
    · exact toNat_one_wide hw
    · simpa using hc
  · have hf : d.another = false := by
      rw [← Bool.not_eq_true]; exact fun hx => hc (ha.1 hx)
    exact .inr ⟨by omega, by simp [divLoopStep, hf]⟩

/-- A round from `DIV_SHIFT` (R72): `m` shifts and the subtraction of the largest multiple that fits, `B * 2^(k+m)`. -/
theorem shift_loop (hw : 34 ≤ w) (m : Nat) {d : DivRegs w} {B quo rem k : Nat} (h : ShiftNat d B quo rem k)
    (hfit : B * 2 ^ (k + m) ≤ rem) (hnext : rem < B * 2 ^ (k + m + 1)) :
    ∃ e : DivRegs w, Loops (m + 1) (.divShift, d) (.divOuter, e) ∧ e.neg = d.neg ∧
      OuterNat e B (quo + 2 ^ (k + m)) (rem - B * 2 ^ (k + m)) := by
  induction m generalizing d k with
  | zero =>
    rcases shift_step hw h with ⟨hc, -, -⟩ | ⟨-, he, ho⟩
    · rw [Nat.add_zero, Nat.pow_succ] at hnext
      exfalso; linarith
    · exact ⟨d.subtract, .cons (.inr rfl) (he ▸ .nil _), rfl, by simpa using ho⟩
  | succ m ih =>
    rcases shift_step hw h with ⟨-, he, hs⟩ | ⟨hc, -, -⟩
    · have e1 : k + 1 + m = k + (m + 1) := by omega
      obtain ⟨e, hl, hn, ho⟩ := ih hs (by rw [e1]; exact hfit) (by rw [e1]; exact hnext)
      exact ⟨e, .cons (.inr rfl) (he ▸ hl), hn, by rw [← e1]; exact ho⟩
    · exfalso
      have h1 : 2 ^ (k + 1) ≤ 2 ^ (k + (m + 1)) := Nat.pow_le_pow_right (by omega) (by omega)
      have h2 : B * 2 ^ (k + 1) ≤ B * 2 ^ (k + (m + 1)) := Nat.mul_le_mul_left _ h1
      rw [Nat.pow_succ] at h2
      linarith

/-! The step count of the rounds (R78) -/

theorem roundSteps_zero (n : Nat) : roundSteps 0 n = 0 := by
  induction n with
  | zero => rfl
  | succ n ih => simp [roundSteps, ih]

/-- A contribution above all the others adds its own steps (R75, R78). -/
theorem roundSteps_add (K n q : Nat) (hq : q < 2 ^ K) (hK : K < n) :
    roundSteps (2 ^ K + q) n = roundSteps q n + (K + 2) := by
  have low : ∀ m, m ≤ K → roundSteps (2 ^ K + q) m = roundSteps q m := by
    intro m hm
    induction m with
    | zero => rfl
    | succ m ih => rw [roundSteps, roundSteps, ih (by omega), Nat.testBit_two_pow_add_gt (by omega)]
  have high : ∀ m, roundSteps (2 ^ K + q) (K + 1 + m) = roundSteps q (K + 1 + m) + (K + 2) := by
    intro m
    induction m with
    | zero =>
      simp only [Nat.add_zero]
      rw [roundSteps, roundSteps, low K le_rfl, Nat.testBit_two_pow_add_eq, Nat.testBit_lt_two_pow hq]
      simp
    | succ m ih =>
      have hp : 2 ^ (K + 1) ≤ 2 ^ (K + 1 + m) := Nat.pow_le_pow_right (by omega) (by omega)
      rw [Nat.pow_succ] at hp
      rw [← Nat.add_assoc, roundSteps, roundSteps, ih, Nat.testBit_lt_two_pow (by omega : 2 ^ K + q < 2 ^ (K + 1 + m)),
        Nat.testBit_lt_two_pow (by omega : q < 2 ^ (K + 1 + m))]
      simp
  obtain ⟨m, rfl⟩ : ∃ m, n = K + 1 + m := ⟨n - (K + 1), by omega⟩
  exact high m

/-- The whole loop from `DIV_OUTER` (R75, R78): it ends in `DIV_FIN` with the quotient and the remainder, after one test for
the end and `k + 2` steps for each bit `k` of the quotient still to come. -/
theorem outer_loop (hw : 34 ≤ w) (q : Nat) {d : DivRegs w} {B quo rem : Nat} (h : OuterNat d B quo rem)
    (hq : q = rem / B) :
    ∃ e : DivRegs w, Loops (roundSteps q 32 + 1) (.divOuter, d) (.divFin, e) ∧ e.neg = d.neg ∧
      OuterNat e B (quo + rem / B) (rem % B) := by
  induction q using Nat.strong_induction_on generalizing d quo rem with
  | _ q ih =>
    have hB := h.pos
    rcases outer_step hw h with ⟨hc, he, hs⟩ | ⟨hc, he⟩
    · have hq1 : q ≠ 0 := by
        rw [hq]; exact Nat.pos_iff_ne_zero.1 (Nat.div_pos hc hB)
      obtain ⟨K, hK⟩ : ∃ K, K = Nat.log2 q := ⟨_, rfl⟩
      have hlo : 2 ^ K ≤ q := hK ▸ Nat.log2_self_le hq1
      have hhi : q < 2 ^ (K + 1) := hK ▸ Nat.lt_log2_self
      have hrem : rem = B * q + rem % B := by rw [hq]; exact (Nat.div_add_mod rem B).symm
      have hmod := Nat.mod_lt rem hB
      have hfit : B * 2 ^ K ≤ rem := by
        have := Nat.mul_le_mul_left B hlo
        omega
      have hnext : rem < B * 2 ^ (K + 1) := by
        have h1 := Nat.mul_le_mul_left B (show q + 1 ≤ 2 ^ (K + 1) from hhi)
        rw [Nat.mul_add] at h1
        omega
      have hb := h.bound
      have hK32 : K < 32 := by
        by_contra hn
        have h1 : 2 ^ 32 ≤ 2 ^ K := Nat.pow_le_pow_right (by omega) (by omega)
        have h2 : 2 ^ K ≤ B * 2 ^ K := Nat.le_mul_of_pos_left _ hB
        omega
      obtain ⟨e, hl, hn, ho⟩ := shift_loop hw K hs (by simpa using hfit) (by simpa using hnext)
      simp only [Nat.zero_add] at hl ho
      have hdiv : (rem - B * 2 ^ K) / B = q - 2 ^ K := by
        rw [hq, Nat.sub_mul_div]
      have hmod' : (rem - B * 2 ^ K) % B = rem % B := Nat.sub_mul_mod hfit
      have h2K : 0 < 2 ^ K := Nat.two_pow_pos K
      have hpow : 2 ^ (K + 1) = 2 * 2 ^ K := by rw [Nat.pow_succ]; ring
      obtain ⟨e', hl', hn', ho'⟩ := ih (q - 2 ^ K) (by omega) ho hdiv.symm
      refine ⟨e', ?_, hn'.trans hn, ?_⟩
      · have hsteps : roundSteps q 32 = roundSteps (q - 2 ^ K) 32 + (K + 2) := by
          have := roundSteps_add K 32 (q - 2 ^ K) (by omega) hK32
          rwa [Nat.add_sub_cancel' hlo] at this
        have := Loops.cons (.inl rfl) (he ▸ hl.trans hl')
        have hcount : K + 1 + (roundSteps (q - 2 ^ K) 32 + 1) + 1 = roundSteps q 32 + 1 := by omega
        rwa [hcount] at this
      · rw [hdiv, hmod'] at ho'
        have : quo + 2 ^ K + (q - 2 ^ K) = quo + rem / B := by omega
        rwa [this] at ho'
    · have h0 : rem / B = 0 := Nat.div_eq_of_lt hc
      rw [h0] at hq
      subst hq
      refine ⟨d, ?_, rfl, ?_⟩
      · rw [roundSteps_zero]
        exact .cons (.inl rfl) (he ▸ .nil _)
      · rw [h0, Nat.mod_eq_of_lt hc]
        simpa using h

theorem roundSteps_le (q n : Nat) : 2 * roundSteps q n ≤ n * (n + 3) := by
  induction n with
  | zero => simp [roundSteps]
  | succ n ih =>
    rw [roundSteps]
    have : (n + 1) * (n + 1 + 3) = n * (n + 3) + 2 * (n + 2) := by ring
    split <;> omega

/-- No magnitude quotient of two 32-bit operands takes more than 527 steps of rounds (R78). -/
theorem roundSteps_bound {q : Nat} (h : q ≤ 2 ^ 31) : roundSteps q 32 ≤ 527 := by
  rcases Nat.lt_or_ge q (2 ^ 31) with hlt | hge
  · rw [roundSteps, Nat.testBit_lt_two_pow hlt]
    have := roundSteps_le q 31
    simp
    omega
  · have hq : q = 2 ^ 31 + 0 := by omega
    rw [hq, roundSteps_add 31 32 0 (by simp) (by omega), roundSteps_zero]
    omega

end Loop

/-! The same loop on the machine -/

variable {w : Nat}

/-- The loaded registers (R68, R70), in `DIV_OUTER`. -/
theorem load_outer (hw : 34 ≤ w) (d : DivRegs w) (a b : Word) (hb : b ≠ 0) :
    OuterNat (d.load a b) b.toInt.natAbs 0 a.toInt.natAbs := by
  refine ⟨toNat_absWide hw b, ?_, toNat_absWide hw a, natAbs_toInt_pos hb, ?_, natAbs_toInt_le b⟩
  · simp [DivRegs.load]
  · have := natAbs_toInt_le a
    omega

/-- A step of the machine in a loop phase is a step of the loop, and changes nothing but `PHASE` and the divider's registers
(R71, R72). -/
theorem step_loop {s : State w} (hp : s.phase = .divOuter ∨ s.phase = .divShift) (hr : s.ports.rst = false) :
    stepAt s = .next (hostMove (enter (divLoopStep (s.phase, s.div)).1 (setDiv (divLoopStep (s.phase, s.div)).2 s))) := by
  rcases hp with hp | hp
  · rw [step_divOuter hp hr, hp]; rfl
  · rw [step_divShift hp hr, hp]; rfl

/-- A loop of the datapath is a run of the machine (R71, R72), busy throughout. -/
theorem Loops.run {n : Nat} {x y : Phase × DivRegs w} (h : Loops n x y) (s : State w)
    (hx : x = (s.phase, s.div)) (hr : ResetLow s) :
    (∃ t, runAt n s = .next t ∧ t.regs = { s.regs with phase := y.1, div := y.2 } ∧ ResetLow t) ∧
      ∀ j, j < n → ∃ t, runAt j s = .next t ∧ (t.phase = .divOuter ∨ t.phase = .divShift) ∧ t.err = s.err := by
  induction h generalizing s with
  | nil x => exact ⟨⟨s, rfl, by simp [hx, State.regs], hr⟩, by omega⟩
  | @cons n x y hp hl ih =>
    subst hx
    have hs := step_loop hp hr.1
    generalize hu : hostMove _ = u at hs
    have hur : ResetLow u := hu ▸ hr.hostMove rfl rfl
    obtain ⟨⟨t, ht, hregs, htr⟩, hj⟩ := ih u (by simp [← hu]) hur
    refine ⟨⟨t, by rw [run_succ_of_step hs, ht], ?_, htr⟩, ?_⟩
    · rw [hregs]; simp [State.regs, ← hu]
    · intro j hjn
      cases j with
      | zero => exact ⟨s, rfl, hp, rfl⟩
      | succ j =>
        obtain ⟨v, hv, h1, h2⟩ := hj j (by omega)
        exact ⟨v, by rw [run_succ_of_step hs, hv], h1, h2.trans (by simp [← hu])⟩

end Sys2Proof.Machine
end

