-- ==== Sys2Proof/Laws/PerInstr.lean ====
section
/-! SUPPORT. PerInstr.lean: what holds of every command as syntax: it passes the checks, and its written word is the one
its row of spec/opcode_table.json describes (R47, R48, R53). -/

namespace Sys2Proof

/-- The `op` of the command's row of spec/opcode_table.json: `match` divided by `2^64`. -/
def Instr.tableOp : Instr → Nat
  | .add _ _ => 0
  | .div _ _ => 1
  | .sub _ _ => 2

/-- A triple with operation `o` is a legal command whose written word has `o` above bit 63. -/
theorem legal_of_op {c : Command} {o : Nat} (h : c.op.toNat = o) (ho : o < 3) :
    c.wellFormed = true ∧ legalCmdWord (pack c).toNat = true ∧ (pack c).toNat / 2 ^ 64 = o := by
  have hq : (pack c).toNat / 2 ^ 64 = o := by
    have ha := c.a.isLt
    have hb := c.b.isLt
    rw [toNat_pack]
    omega
  refine ⟨?_, ?_, hq⟩
  · simp only [Command.wellFormed, bne_iff_ne, ne_eq]
    rintro hc
    rw [hc] at h
    simp at h
    omega
  · have hw := (pack c).isLt
    simp [legalCmdWord, fitsCmdWord]
    omega

end Sys2Proof

namespace Sys2Proof.Laws.OpcodeRow

/-- The command and its triple pass the well-formedness checks, and its word lies in its row of the opcode table. -/
def Statement (i : Instr) : Prop :=
  i.wellFormed = true ∧ i.toCommand.wellFormed = true ∧ legalCmdWord (encode i).toNat = true ∧
    (encode i).toNat / 2 ^ 64 = i.tableOp

theorem add (a b : Word) : Statement (.add a b) := ⟨rfl, legal_of_op (o := 0) rfl (by decide)⟩
theorem div (a b : Word) : Statement (.div a b) := ⟨rfl, legal_of_op (o := 1) rfl (by decide)⟩
theorem sub (a b : Word) : Statement (.sub a b) := ⟨rfl, legal_of_op (o := 2) rfl (by decide)⟩

end Sys2Proof.Laws.OpcodeRow
end

