-- ==== Sys2Proof/Tests/Slice0.lean ====
section
/-! SUPPORT. Slice0.lean: the model's own tests. Expected values are those of spec/95_test_vectors.md (its traces T1 to T12
and tables IF1 to IF9) or of the rule named, never the model's own answers. After the tests stands, for every obligation
that has hypotheses, a witness `witness_<Obligation>`: concrete data that meet them. -/

namespace Sys2Proof.Tests

open Sys2Proof.Machine

/-! ### Helpers -/

/-- A state in phase `p` with every register 0 and nothing requested. -/
def blank (p : Phase) : State where
  phase := p
  err := false
  res := 0
  xa := 0
  xb := 0
  sa := 0
  div :=
    { neg := false
      rem := 0
      dvs := 0
      tmp := 0
      mul := 0
      quo := 0 }
  ports := PortIn.quiet
  host := []
  inst := 0
  draws := 0

/-- `s` with a command requested. -/
def asking {w : Nat} (i : Instr) (s : State w) : State w := { s with ports := PortIn.request i.toCommand }

/-- The ports with `rst == 1` and a request for the triple `c`. -/
def resetPorts (c : Command) : PortIn := { PortIn.request c with rst := true }

/-- `s` in an adder phase with the pair `(x, y)` and the kept operand `k`. -/
def adding (p : Phase) (x y k : Word) : State :=
  { blank p with
    xa := x
    xb := y
    sa := k }

/-- `s` in a divider phase with `NEG`, `REM`, `DVS`, `TMP`, `MUL`, `QUO`. -/
def dividing (p : Phase) (neg : Bool) (rem dvs tmp mul quo : Wide) : State :=
  { blank p with
    div :=
      { neg := neg
        rem := rem
        dvs := dvs
        tmp := tmp
        mul := mul
        quo := quo } }

/-- The step has a successor with property `f`. -/
def after {w : Nat} (o : Host.Outcome (State w) Fault Refusal) (f : State w → Bool) : Bool :=
  match o with
  | .next t => f t
  | .fault _ => false
  | .refused _ => false

/-- The step is refused for the reserved operation. -/
def refusedForOp (o : Host.Outcome State Fault Refusal) : Bool :=
  match o with
  | .next _ => false
  | .fault _ => false
  | .refused r => r == .reservedOp

/-! ### Well-formedness: each check refuses an ill-formed term -/

/-- R51: `op == 0b11` is no command. -/
theorem test_wellFormed_refuses_reserved_op : (Command.mk 0b11#2 0 0).wellFormed = false := by decide

/-- R48: a number with bit 66 set is no command word. -/
theorem test_fits_refuses_bit_66 : fitsCmdWord (2 ^ 66) = false := by decide

/-- R48, R51: neither a number that is too wide nor a word with top digit 3 is a legal command word. -/
theorem test_legal_refuses : legalCmdWord (2 ^ 66) = false ∧ legalCmdWord 0x30000000000000000 = false ∧
    legalCmdWord 0x3FFFFFFFFFFFFFFFF = false ∧ legalCmdWord 0x2FFFFFFFFFFFFFFFF = true := by decide

/-- R36, R52: no command is ill-formed, since every operand pattern is legal. -/
theorem test_every_command_is_wellFormed (i : Instr) : i.wellFormed = true := by cases i <;> rfl

/-! ### Decoding: words written out from R46 to R48 -/

/-- `ADD`: `op = 00`, then `a = 5`, then `b = 3`, bit by bit (R48's first example). -/
theorem test_decode_add :
    decode (0b00#2 ++ (0b00000000000000000000000000000101#32 ++ 0b00000000000000000000000000000011#32)) =
      .command (.add 5#32 3#32) := by decide

/-- `DIV`: `op = 01`, then `a = -15`, then `b = 3` (R48's second example). -/
theorem test_decode_div :
    decode (0b01#2 ++ (0b11111111111111111111111111110001#32 ++ 0b00000000000000000000000000000011#32)) =
      .command (.div (-15) 3#32) := by decide

/-- `SUB`: `op = 10`, then `a = 5`, then `b = 8` (R48's third example). -/
theorem test_decode_sub :
    decode (0b10#2 ++ (0b00000000000000000000000000000101#32 ++ 0b00000000000000000000000000001000#32)) =
      .command (.sub 5#32 8#32) := by decide

/-- R51: `op = 11` is rejected, with any operands; R48: so is a number that is too wide. -/
theorem test_decode_rejects :
    decode (0b11#2 ++ (0x00000005#32 ++ 0x00000003#32)) = .rejected .reservedOp ∧
      decodeNat 0x3FFFFFFFFFFFFFFFF = .rejected .reservedOp ∧ decodeNat (2 ^ 66) = .rejected .tooWide := by decide

/-- The rows of spec/opcode_table.json, 66 bits in 9 bytes, with operands of zeros. -/
theorem test_table_rows :
    decodeTableWord 72 0 = some (.add 0 0) ∧ decodeTableWord 72 18446744073709551616 = some (.div 0 0) ∧
      decodeTableWord 72 36893488147419103232 = some (.sub 0 0) ∧
      decodeTableWord 72 55340232221128654848 = none := by decide

/-- R48: the written form of `SUB 5, 8` is `0x2_00000005_00000008`. -/
theorem test_digits :
    CmdWord.digits (encode (.sub 5#32 8#32)) = [2, 0, 0, 0, 0, 0, 0, 0, 5, 0, 0, 0, 0, 0, 0, 0, 8] := by decide

/-- R54: `DIV -15, 3`, and a literal that is no 32-bit value. -/
theorem test_assemble : assemble .div (-15) 3 = some (.div 0xFFFFFFF1#32 3#32) ∧
    assemble .add 4294967296 0 = none := by decide

/-! ### One step of each command -/

/-- T1, step 1. -/
theorem test_add_accept :
    after (step (asking (.add 5#32 3#32) (blank .done)))
      (fun t => t.phase == .addRun && t.xa == 5 && t.xb == 3 && !t.err) = true := by decide

/-- T1, steps 5 and 6, and an iteration whose carry out of bit 31 goes nowhere (R58). -/
theorem test_add_run :
    after (step (adding .addRun 0x0 0x8 0)) (fun t => t.phase == .addRun && t.xa == 8 && t.xb == 0) = true ∧
      after (step (adding .addRun 0x8 0x0 0)) (fun t => t.outcome == some (.ok 8)) = true ∧
      after (step (adding .addRun 0xC0000000#32 0x80000000#32 0))
        (fun t => t.xa == 0x40000000#32 && t.xb == 0) = true := by decide

/-- T8 (the error), T9, step 1 (widened before made absolute), and IF8, step 5 (from `DONE` to `DONE`). -/
theorem test_div_accept :
    after (step (asking (.div 10#32 0) (blank .idle)))
        (fun t => t.outcome == some .divisionByZero && t.status == 0b011#3 && t.result? == none) = true ∧
      after (step (asking (.div 5#32 minInt32) (blank .idle)))
        (fun t => t.phase == .divOuter && t.div.neg && t.div.rem == 5 && t.div.dvs == 0x80000000#64 &&
          t.div.quo == 0) = true ∧
      after (step (asking (.div 0 5#32) { blank .done with res := 3 }))
        (fun t => t.outcome == some (.ok 0)) = true := by decide

/-- T4, steps 3 and 4, T6, step 34 (the comparison with `2^32`), and T5, step 9 (the negated quotient). -/
theorem test_div_loop :
    after (step (dividing .divShift false 7 2 2 1 0))
        (fun t => t.phase == .divShift && t.div.tmp == 4 && t.div.mul == 2 && t.div.rem == 7) = true ∧
      after (step (dividing .divShift false 7 2 4 2 0))
        (fun t => t.phase == .divOuter && t.div.rem == 3 && t.div.quo == 2) = true ∧
      after (step (dividing .divShift false 0x80000000 1 0x80000000 0x80000000 0))
        (fun t => t.phase == .divOuter && t.div.rem == 0 && t.div.quo == 0x80000000#64) = true ∧
      after (step (dividing .divFin true 0 3 0 0 5)) (fun t => t.outcome == some (.ok 0xFFFFFFFB#32)) = true := by
  decide

/-- T10, step 1, and T12, step 1. -/
theorem test_sub_accept :
    after (step (asking (.sub 5#32 8#32) (blank .idle)))
        (fun t => t.phase == .subNeg && t.xa == 0xFFFFFFF7#32 && t.xb == 1 && t.sa == 5) = true ∧
      after (step (asking (.sub maxInt32 0xFFFFFFFF#32) (blank .idle)))
        (fun t => t.phase == .subNeg && t.xa == 1 && t.xb == 0 && t.sa == maxInt32) = true := by decide

/-- T10, step 6, and T11, step 34: the hand-over reads `SA` and the old `XA`. -/
theorem test_sub_handOver :
    after (step (adding .subNeg 0xFFFFFFF8#32 0 5))
        (fun t => t.phase == .subRun && t.xa == 5 && t.xb == 0xFFFFFFF8#32) = true ∧
      after (step (adding .subNeg 0x80000000#32 0 0))
        (fun t => t.phase == .subRun && t.xa == 0x80000000#32 && t.xb == 0) = true := by decide

/-- IF9: the reserved operation is refused in a free phase, and not read in a working phase or under reset. -/
theorem test_reserved_op :
    refusedForOp (step { blank .idle with ports := PortIn.request ⟨0b11#2, 1, 2⟩ }) = true ∧
      after (step { adding .addRun 8 0 0 with ports := PortIn.request ⟨0b11#2, 1, 2⟩ })
        (fun t => t.outcome == some (.ok 8)) = true ∧
      after (step { blank .idle with ports := resetPorts ⟨0b11#2, 1, 2⟩ }) (fun t => t.phase == .idle) = true := by
  decide

/-- IF2, step 1: reset comes before a request; IF1, step 3: a free block without a request holds. -/
theorem test_reset_first :
    after (step { blank .done with ports := resetPorts ⟨0b01#2, 10, 0⟩ })
        (fun t => t.status == 0b000#3 && t.result? == none) = true ∧
      after (step (blank .idle)) (fun t => t.status == 0b000#3) = true := by decide

/-- The interface's two entry points on the rows of the opcode table, from the state after reset. -/
theorem test_fetch_word :
    after (step (State.reset.withFetchWord 72 0)) (fun t => t.phase == .addRun && t.xa == 0 && t.xb == 0) = true ∧
      after (step (State.reset.withFetchWord 72 0x10000000700000002))
        (fun t => t.phase == .divOuter && t.div.rem == 7 && t.div.dvs == 2) = true ∧
      after (step (State.reset.withFetchWord 72 0x20000000000000000)) (fun t => t.phase == .subNeg) = true := by decide

/-- R48: a number with a bit above bit 65 is no command word: it decodes to nothing and requests nothing. -/
theorem test_fetch_too_wide :
    decodeTableWord 72 (2 ^ 66) = none ∧
      after (step (State.reset.withFetchWord 72 (2 ^ 66))) (fun t => t.phase == .idle) = true := by decide

/-- R76: at the least width, 34, `MIN_INT32` is still widened to `2^31`. -/
theorem test_width_34 :
    after (stepAt (asking (.div minInt32 0xFFFFFFFF#32) (State.resetOf 0 : State 34)))
      (fun t => t.phase == .divOuter && t.div.rem == 0x80000000#34 && t.div.dvs == 1) = true := by decide

/-! ### Witnesses: data that meet the hypotheses of the obligations -/

theorem requests_asking {w : Nat} (i : Instr) (s : State w) : Requests i (asking i s) := by cases i <;> exact ⟨rfl, rfl, rfl⟩

theorem resetLow_asking {w : Nat} (i : Instr) (s : State w) (h : s.host = []) : ResetLow (asking i s) := by
  refine ⟨rfl, ?_⟩
  show ∀ p ∈ s.host, p.rst = false
  rw [h]
  intro p hp
  cases hp

theorem witness_OneWordForEachCommand :
    decode 0x1FFFFFFF100000003#66 = .command (.div 0xFFFFFFF1#32 3#32) ∧
      decodeNat 0x2FFFFFFFFFFFFFFFF = .command (.sub 0xFFFFFFFF#32 0xFFFFFFFF#32) := by decide

/-- Both ends of each of the four ranges. -/
theorem witness_TopTwoBitsSelectTheCommand :
    (0x00000000000000000#66).toNat / 2 ^ 64 = 0 ∧ (0x0FFFFFFFFFFFFFFFF#66).toNat / 2 ^ 64 = 0 ∧
      (0x10000000000000000#66).toNat / 2 ^ 64 = 1 ∧ (0x1FFFFFFFFFFFFFFFF#66).toNat / 2 ^ 64 = 1 ∧
      (0x20000000000000000#66).toNat / 2 ^ 64 = 2 ∧ (0x2FFFFFFFFFFFFFFFF#66).toNat / 2 ^ 64 = 2 ∧
      (0x30000000000000000#66).toNat / 2 ^ 64 = 3 ∧ (0x3FFFFFFFFFFFFFFFF#66).toNat / 2 ^ 64 = 3 := by decide

/-- The ends of the literals' range, and the two sides of 0. -/
theorem witness_WrittenFormStandsForTheWord :
    ∀ x ∈ [(-(2 ^ 31) : Int), -1, 0, 2 ^ 32 - 1], -(2 ^ 31) ≤ x ∧ x < 2 ^ 32 := by decide

/-- One witness for each clause: a request, the two cases of the host's move, a word of the table. -/
theorem witness_StepRunsTheDecodedCommand :
    (let s := asking (.sub 5#32 8#32) (blank .done);
      s.free = true ∧ s.ports.rst = false ∧ s.ports.start = true ∧
        decode (pack s.ports.command) = .command (.sub 5#32 8#32)) ∧
      (blank .idle).host = [] ∧ { blank .idle with host := [PortIn.quiet] }.host = PortIn.quiet :: [] ∧
      decodeTableWord 72 0x2FFFFFFFFFFFFFFFF = some (.sub 0xFFFFFFFF#32 0xFFFFFFFF#32) := by decide

/-- An accepting step with the reserved operation, and three steps that are not one. -/
theorem witness_OnlyTheReservedOpIsRefused :
    let p : PortIn := PortIn.request ⟨0b11#2, 0, 0⟩
    ({ blank .idle with ports := p }.accepting = true ∧ p.op = 0b11#2) ∧
      { blank .addRun with ports := p }.accepting = false ∧
      { blank .done with ports := resetPorts ⟨0b11#2, 0, 0⟩ }.accepting = false ∧
      (asking (.add 0 0) (blank .idle)).ports.op ≠ 0b11#2 := by decide

theorem witness_LegalHostIsNeverStopped :
    NeverReserved { blank .divFin with host := [PortIn.request ⟨0b10#2, 1, 2⟩] } := by
  unfold NeverReserved
  decide

theorem witness_StepWithoutRequestHoldsEverything :
    ∀ s ∈ [blank .idle, { blank .done with res := 3 }, { blank .done with err := true }],
      s.free = true ∧ s.ports.rst = false ∧ s.ports.start = false ∧ ResetLow s ∧ StartLow s := by
  unfold ResetLow StartLow
  decide

theorem witness_BusyStepReadsNoRequest :
    (blank .addRun).busy = true ∧ (blank .subNeg).busy = true ∧ (blank .subRun).busy = true ∧
      (blank .divOuter).busy = true ∧ (blank .divShift).busy = true ∧ (blank .divFin).busy = true ∧
      (PortIn.request ⟨0b01#2, 10, 0⟩).rst = false ∧ PortIn.quiet.rst = false := by decide

/-- Two states that differ in every register that no step may read, in each kind of phase. -/
theorem witness_OnlyDefinedRegistersAreRead :
    DefinedAgree (dividing .divOuter true 5 3 1 2 4) { dividing .divOuter true 5 3 9 9 4 with res := 7, xa := 8 } ∧
      DefinedAgree (adding .addRun 1 2 3) { adding .addRun 1 2 9 with res := 7 } ∧
      DefinedAgree (adding .subNeg 1 2 3) { adding .subNeg 1 2 3 with res := 7 } ∧
      DefinedAgree { blank .done with err := true } { blank .done with err := true, res := 7 } ∧
      DefinedAgree (blank .idle) { blank .idle with res := 7, sa := 1 } := 
  ⟨⟨rfl, rfl, rfl, rfl, rfl, rfl, rfl, rfl⟩, ⟨rfl, rfl, rfl, rfl, rfl, rfl⟩, ⟨rfl, rfl, rfl, rfl, rfl, rfl, rfl⟩,
    ⟨rfl, rfl, rfl, rfl, fun h => absurd h (by decide)⟩, rfl, rfl, rfl, rfl, trivial⟩

/-- A reset step after which the host requests a command at once. -/
theorem witness_ResetStepClearsTheBlock :
    let s : State :=
      { blank .divShift with
        ports := resetPorts ⟨0b01#2, 10, 0⟩
        host := [PortIn.request ⟨0b00#2, 5, 3⟩] }
    s.ports.rst = true ∧ ∃ t, step s = .next t ∧ Requests (.add 5#32 3#32) t :=
  ⟨rfl, _, rfl, rfl, rfl, rfl⟩

theorem witness_ResetValues : { blank .done with ports := resetPorts ⟨0b00#2, 0, 0⟩ }.ports.rst = true := by decide

theorem witness_ResetAbandonsTheCommand :
    let s : State :=
      { blank .addRun with
        ports := resetPorts ⟨0b11#2, 0, 0⟩
        host := [PortIn.quiet] }
    s.busy = true ∧ s.ports.rst = true ∧ ∀ p ∈ s.host, p.start = false := by decide

theorem witness_ResetOutranksAndZeroDivisorComesFirst :
    (resetPorts ⟨0b01#2, 10, 0⟩).rst = true ∧ (blank .idle).free = true ∧ (blank .done).free = true := by decide

/-- A reset step, an accepting step of `DIV 10, 0` and of `DIV 10, 1`, and a step that is neither. -/
theorem witness_ErrIsWrittenOnlyByResetAndAccept :
    (let s : State := { blank .addRun with ports := resetPorts ⟨0b00#2, 0, 0⟩ };
      s.ports.rst = true ∧ ∃ t, step s = .next t) ∧
    (let s := asking (.div 10#32 0#32) (blank .idle);
      s.accepting = true ∧ s.ports.op = 0b01#2 ∧ s.ports.b = 0 ∧ ∃ t, step s = .next t) ∧
    (let s := asking (.div 10#32 1#32) (blank .done);
      s.accepting = true ∧ s.ports.b ≠ 0 ∧ ∃ t, step s = .next t) ∧
    (let s := adding .addRun 5 3 0;
      s.ports.rst = false ∧ s.accepting = false ∧ ∃ t, step s = .next t) :=
  ⟨⟨rfl, _, rfl⟩, ⟨rfl, rfl, rfl, _, rfl⟩, ⟨rfl, by decide, _, rfl⟩, rfl, rfl, _, rfl⟩

/-- A state of each of the four rows. -/
theorem witness_StatusHasFourLegalValues :
    ∀ s ∈ [blank .idle, blank .divFin, { blank .done with res := 8 }, { blank .done with err := true }],
      s.err = true → s.phase = .done := by decide

theorem witness_DivisionByZeroEntry : (blank .idle).free = true ∧ (blank .done).free = true := by decide

/-- The error state, held, followed by a command, and reset. -/
theorem witness_ErrorLeavesNoTrace :
    let s : State := { blank .done with err := true }
    (s.phase = .done ∧ s.err = true ∧ s.ports.rst = false ∧ s.ports.start = false) ∧
      (let u := asking (.div 7#32 0#32) s;
        u.phase = .done ∧ u.err = true ∧ Requests (.div 7#32 0#32) u ∧ ∃ t, step u = .next t) ∧
      { s with ports := resetPorts ⟨0b00#2, 0, 0⟩ }.ports.rst = true :=
  ⟨⟨rfl, rfl, rfl, rfl⟩, ⟨rfl, rfl, requests_asking _ _, _, rfl⟩, rfl⟩

/-- The three cases of `AdderLoad`, `(0, 0)` among them. -/
theorem witness_AdderLoadKeepsTheSum :
    (0 : Word) = 0 ∧ ((1 : Word) ≠ 0 ∧ (0 : Word) = 0) ∧ ((1 : Word) ≠ 0 ∧ (0x80000000#32 : Word) ≠ 0) := by decide

theorem witness_AdderIterationBitByBit :
    ∀ s ∈ [adding .addRun 5 3 0, adding .subNeg 0xFFFFFFF7#32 1 5, adding .subRun 0x80000000#32 0x80000000#32 0],
      ((s.phase = .addRun ∨ s.phase = .subNeg ∨ s.phase = .subRun) ∧ s.ports.rst = false ∧ s.xb ≠ 0) ∧
      (let u := { s with xb := 0 };
        (u.phase = .addRun ∨ u.phase = .subNeg ∨ u.phase = .subRun) ∧ u.ports.rst = false ∧ u.xb = 0) := by decide

theorem witness_AddAcceptLoadsTheAdder : (blank .idle).free = true ∧ (blank .done).free = true := by decide

/-- The finish and the iteration, in both phases. -/
theorem witness_RunStepFinishesOrIterates :
    (∀ s ∈ [adding .addRun 8 0 0, adding .subRun 0xFFFFFFFD#32 0 0],
      (s.phase = .addRun ∨ s.phase = .subRun) ∧ s.ports.rst = false ∧ s.xb = 0) ∧
    ∀ s ∈ [adding .addRun 5 3 0, adding .subRun 5 0xFFFFFFF8#32 0],
      (s.phase = .addRun ∨ s.phase = .subRun) ∧ s.ports.rst = false ∧ s.xb ≠ 0 := by decide

/-- A pair that runs the loop 32 times, and one that does not run it. -/
theorem witness_AdderLoopLeavesTheSum :
    ∀ s ∈ [adding .addRun 0x7FFFFFFF#32 1 0, adding .addRun 8 0 0], s.phase = .addRun ∧ ResetLow s := by
  unfold ResetLow
  decide

theorem witness_AdderLoopEnds : (1 : Word) ≠ 0 ∧ (0x80000000#32 : Word) ≠ 0 := by decide

theorem witness_AddStepCount :
    let i : Instr := .add 0x7FFFFFFF#32 1#32
    (asking i (blank .idle)).free = true ∧ Requests i (asking i (blank .idle)) ∧ ResetLow (asking i (blank .idle)) ∧
      1 ≤ 1 ∧ 1 < addSteps 0x7FFFFFFF#32 1#32 :=
  ⟨rfl, requests_asking _ _, resetLow_asking _ _ rfl, by decide, by decide⟩

theorem witness_AddCommandCompletes : (blank .idle).free = true ∧ ResetLow (blank .idle) := by
  unfold ResetLow
  decide

theorem witness_AddLaws : fAdd maxInt32 1 = .ok minInt32 ∧ fAdd 1 0xFFFFFFFF#32 = .ok 0 := by decide

theorem witness_AddCornerCases : (5 : Word) ≠ 0 ∧ ~~~(5 : Word) ≠ 0 := by decide

/-- Each of the four cases, at values where two of the tests meet. -/
theorem witness_DivAcceptTestsThenLoads :
    (blank .done).free = true ∧ (0 : Word) = 0 ∧ ((1 : Word) ≠ 0 ∧ (0 : Word) = 0) ∧
      ((1 : Word) ≠ 0 ∧ minInt32 ≠ 0 ∧ (1 : Word) = 1) ∧ ((2 : Word) ≠ 0 ∧ minInt32 ≠ 0 ∧ (2 : Word) ≠ 1) := by decide

theorem witness_AbsoluteValueIsWidenedFirst :
    Config.wWideMin ≤ 34 ∧ Config.wWideMin ≤ Config.wWide ∧ minInt32 ≠ 0 ∧ (2 : Word) ≠ 0 ∧ (2 : Word) ≠ 1 ∧
      ∃ t, exec (.div minInt32 2#32) (blank .idle) = .next t :=
  ⟨by decide, by decide, by decide, by decide, by decide, _, rfl⟩

/-- Equality counts as "another round". -/
theorem witness_DivOuterStepTests :
    (let s := dividing .divOuter false 2 2 0 0 0;
      s.phase = .divOuter ∧ s.ports.rst = false ∧ s.div.dvs.toInt ≤ s.div.rem.toInt) ∧
    (let s := dividing .divOuter true 1 2 0 0 3;
      s.phase = .divOuter ∧ s.ports.rst = false ∧ s.div.rem.toInt < s.div.dvs.toInt) := by decide

/-- Equality takes the shift. -/
theorem witness_DivShiftStepShiftsOrSubtracts :
    (let s := dividing .divShift false 4 2 2 1 0;
      s.phase = .divShift ∧ s.ports.rst = false ∧ (s.div.tmp <<< 1).toInt ≤ s.div.rem.toInt) ∧
    (let s := dividing .divShift false 0x80000000 1 0x80000000 0x80000000 0;
      s.phase = .divShift ∧ s.ports.rst = false ∧ s.div.rem.toInt < (s.div.tmp <<< 1).toInt) := by decide

theorem witness_DivFinStepNegatesAndNarrows :
    (let s := dividing .divFin false 0 1 0 0 0x80000000;
      s.phase = .divFin ∧ s.ports.rst = false ∧ s.div.neg = false) ∧
    (let s := dividing .divFin true 0 3 0 0 5;
      s.phase = .divFin ∧ s.ports.rst = false ∧ s.div.neg = true) := by decide

/-- The ends of the 32-bit range, and the neighbours of `MIN_INT32 / -1`. -/
theorem witness_NarrowingWrapsOnlyMinByMinusOne :
    (let q : Wide := BitVec.ofInt 64 (-(2 ^ 31));
      -(2 ^ 31) ≤ q.toInt ∧ q.toInt < 2 ^ 31) ∧
    (let q : Wide := 0x7FFFFFFF#64;
      -(2 ^ 31) ≤ q.toInt ∧ q.toInt < 2 ^ 31) ∧
    (0xFFFFFFFF#32 : Word) ≠ 0 ∧ ¬(0x80000001#32 = minInt32 ∧ (0xFFFFFFFF#32 : Word) = 0xFFFFFFFF#32) := by decide

/-- `DIV 7, 2` (T4): its loading, a state before a round and one inside it. -/
theorem witness_DividerLoopInvariants :
    (∃ t, exec (.div 7#32 2#32) (blank .idle) = .next t) ∧ (2 : Word) ≠ 0 ∧ (7 : Word) ≠ 0 ∧ (2 : Word) ≠ 1 ∧
    (let s := dividing .divOuter false 3 2 4 2 2;
      s.ports.rst = false ∧ (∃ t, step s = .next t) ∧ s.phase = .divOuter ∧ OuterTie 7 2 s.div) ∧
    (let s := dividing .divShift false 7 2 4 2 0;
      s.ports.rst = false ∧ (∃ t, step s = .next t) ∧ s.phase = .divShift ∧ ShiftTie 7 2 s.div) :=
  ⟨⟨_, rfl⟩, by decide, by decide, by decide, ⟨rfl, ⟨_, rfl⟩, rfl, by unfold OuterTie; decide⟩,
    rfl, ⟨_, rfl⟩, rfl, by unfold OuterTie; decide, 1, by decide⟩

/-- T6, steps 1, 33 and 35: the largest dividend magnitude. -/
theorem witness_DividerRanges :
    BlockInv (dividing .divOuter false 0x80000000 1 0 0 0) ∧
      BlockInv (dividing .divShift false 0x80000000 1 0x80000000 0x80000000 0) ∧
      BlockInv (dividing .divFin false 0 1 0 0 0x80000000) :=
  ⟨⟨by decide, by unfold DivBounded; decide, 32, by unfold Decreasing; decide⟩,
    ⟨by decide, by unfold DivBounded; decide, 32, 31, by unfold Decreasing; decide⟩,
    by decide, by unfold DivBounded; decide, by decide⟩

theorem witness_QuotientDoesNotDependOnTheWideWidth :
    Config.wWideMin ≤ 34 ∧ Config.wWideMin ≤ 64 ∧ (0xFFFFFFFF#32 : Word) ≠ 0 := by decide

/-- The three kinds of count at the values where they meet, and a request. -/
theorem witness_DivStepCount :
    (let i : Instr := .div maxInt32 0xFFFFFFFF#32;
      (asking i (blank .idle)).free = true ∧ Requests i (asking i (blank .idle)) ∧
        ResetLow (asking i (blank .idle))) ∧
    (1 ≤ 529 ∧ 529 < divSteps maxInt32 0xFFFFFFFF#32) ∧
    ((1 : Word) = 0 ∨ (5 : Word) = 0 ∨ (1 : Word) = 1) ∧
    (¬(minInt32 = 0 ∨ maxInt32 = 0 ∨ minInt32 = 1) ∧ maxInt32.toInt.natAbs < minInt32.toInt.natAbs) :=
  ⟨⟨rfl, requests_asking _ _, resetLow_asking _ _ rfl⟩, by decide, by decide, by decide⟩

/-- With a divisor 0 and with another. -/
theorem witness_DivCommandCompletes :
    (blank .done).free = true ∧ ResetLow (blank .done) ∧ (0 : Word) = 0 ∧ (0xFFFFFFFF#32 : Word) ≠ 0 := by
  unfold ResetLow
  decide

theorem witness_DivTruncatesTowardZero :
    (3 : Word) ≠ 0 ∧ ¬(0xFFFFFFF1#32 = minInt32 ∧ (3 : Word) = 0xFFFFFFFF#32) ∧
      fDiv 0xFFFFFFF1#32 3 = .ok 0xFFFFFFFB#32 := by decide

theorem witness_DivLaws :
    maxInt32 ≠ minInt32 ∧ (2 : Word) ≠ 0 ∧ (2 : Word) ≠ minInt32 ∧ fDiv 7 2 = .ok 3 := by decide

theorem witness_DivCornerCases : maxInt32 ≠ minInt32 ∧ maxInt32 ≠ 0 := by decide

/-- The two cases of the first pass. -/
theorem witness_SubAcceptLoadsTheComplement :
    (blank .idle).free = true ∧ (0xFFFFFFFE#32 : Word) ≠ 0xFFFFFFFF#32 ∧ (0xFFFFFFFF#32 : Word) = 0xFFFFFFFF#32 := by
  decide

/-- The three hand-overs and the iteration. -/
theorem witness_SubNegStepHandsOver :
    (∀ s ∈ [adding .subNeg 0 0 5, adding .subNeg 0x80000000#32 0 0, adding .subNeg 0xFFFFFFF8#32 0 5,
        adding .subNeg 0xFFFFFFF7#32 1 5], s.phase = .subNeg ∧ s.ports.rst = false) ∧
      (adding .subNeg 0 0 5).xa = 0 ∧ (adding .subNeg 0x80000000#32 0 0).xa ≠ 0 ∧
      (adding .subNeg 0x80000000#32 0 0).sa = 0 ∧ (adding .subNeg 0xFFFFFFF8#32 0 5).sa ≠ 0 ∧
      (adding .subNeg 0xFFFFFFF7#32 1 5).xb ≠ 0 := by decide

theorem witness_SubFirstPassNegates : (blank .idle).free = true ∧ ResetLow (blank .idle) := by
  unfold ResetLow
  decide

/-- A request of a command that takes the most steps, and the cases of the two counts where they meet. -/
theorem witness_SubStepCount :
    (let i : Instr := .sub 8#32 8#32;
      (asking i (blank .idle)).free = true ∧ Requests i (asking i (blank .idle)) ∧
        ResetLow (asking i (blank .idle))) ∧
    (1 ≤ 35 ∧ 35 < subSteps 8#32 8#32) ∧ (0xFFFFFFFE#32 : Word) ≠ 0xFFFFFFFF#32 ∧ (0xFFFFFFFE#32 : Word) ≠ 0 ∧
    (8#32 : Word) ≠ 0 :=
  ⟨⟨rfl, requests_asking _ _, resetLow_asking _ _ rfl⟩, by decide, by decide, by decide, by decide⟩

theorem witness_SubCommandCompletes :
    (blank .done).free = true ∧ ResetLow (blank .done) ∧ fAdd (~~~8#32) 1 = .ok 0xFFFFFFF8#32 := by
  unfold ResetLow
  decide

theorem witness_SubLaws : fSub minInt32 1 = .ok maxInt32 := by decide

/-- A step inside a round of `DIV 7, 2`, from a state that meets the invariant. -/
theorem witness_StepKeepsTheInvariant :
    let s := dividing .divShift false 7 2 2 1 0
    BlockInv s ∧ ∃ t, step s = .next t ∧ t.phase = .divShift :=
  ⟨⟨by decide, by unfold DivBounded; decide, 32, 0, by unfold Decreasing; decide⟩, _, rfl, rfl⟩

theorem witness_EveryCommandEndsWithItsOutcome :
    let i : Instr := .div minInt32 0xFFFFFFFF#32
    (asking i (blank .idle)).free = true ∧ Requests i (asking i (blank .idle)) ∧ ResetLow (asking i (blank .idle)) ∧
      1 ≤ 35 ∧ 35 < stepCount i :=
  ⟨rfl, requests_asking _ _, resetLow_asking _ _ rfl, by decide, by decide⟩

/-- Two states with different registers and outcomes that are asked for the same command. -/
theorem witness_OutcomeDependsOnTheCommandAlone :
    let i : Instr := .sub 5#32 8#32
    let s := asking i (blank .idle)
    let t := asking i { blank .done with err := true, xa := 9 }
    s.free = true ∧ t.free = true ∧ Requests i s ∧ Requests i t ∧ ResetLow s ∧ ResetLow t ∧
      1 ≤ 8 ∧ 8 ≤ stepCount i :=
  ⟨rfl, rfl, requests_asking _ _, requests_asking _ _, resetLow_asking _ _ rfl, resetLow_asking _ _ rfl,
    by decide, by decide⟩

theorem witness_EveryBusyBlockFinishes :
    let s := dividing .divOuter true 0x7FFFFFFF 1 0 0 0
    BlockInv s ∧ s.busy = true ∧ ResetLow s :=
  ⟨⟨by decide, by unfold DivBounded; decide, 31, by unfold Decreasing; decide⟩, by decide, by
    unfold ResetLow
    decide⟩

theorem witness_HeldStartRepeatsTheCommand :
    let i : Instr := .add 1#32 2#32
    let s := asking i { blank .idle with host := [PortIn.request i.toCommand] }
    s.free = true ∧ Requests i s ∧ ∀ p ∈ s.host, p = s.ports :=
  ⟨rfl, requests_asking _ _, by decide⟩

theorem witness_OnlyDivisionByZeroFails :
    let i : Instr := .div 10#32 0#32
    (asking i (blank .done)).free = true ∧ Requests i (asking i (blank .done)) ∧ ResetLow (asking i (blank .done)) :=
  ⟨rfl, requests_asking _ _, resetLow_asking _ _ rfl⟩

/-- Two instances, both of which step. -/
theorem witness_InstancesAreIndependent :
    let v : System 2 := #v[asking (.add 5#32 3#32) (blank .idle), adding .subRun 5 0xFFFFFFF8#32 0]
    (0 : Fin 2) ≠ 1 ∧ ∃ v', System.stepAt 0 v = .next v' ∧ ∃ w, System.stepAt 1 v' = .next w :=
  ⟨by decide, _, rfl, _, rfl⟩

/-- The least width, and the operands that need it (R76). -/
theorem witness_EveryWidthHasTheSameOutcomes :
    let i : Instr := .div minInt32 0xFFFFFFFF#32
    let s : State 34 := asking i (State.resetOf 0)
    Config.wWideMin ≤ 34 ∧ s.free = true ∧ Requests i s ∧ ResetLow s ∧ 1 ≤ 35 ∧ 35 < stepCount i :=
  ⟨by decide, rfl, requests_asking _ _, resetLow_asking _ _ rfl, by decide, by decide⟩

end Sys2Proof.Tests
end

section
/-! Every command from its accepting step to its outcome, at every width of the divider (R5, R63, R76, R78, R89, R116).
`BusyRun` is a stretch of busy steps. The stretches of the three commands are put together from the loops of
Laws/Adder.lean and Laws/Divider.lean, each with its frame, and end in `command_completes`. -/

namespace Sys2Proof.Machine

variable {w : Nat}

/-! Stretches of busy steps -/

/-- `n` steps lead from `s` to `t`, the block is busy before each of them, and neither `ERR` nor the host's promise about
`rst` changes (R24, R109). -/
structure BusyRun (n : Nat) (s t : State w) : Prop where
  run : runAt n s = .next t
  busy : ∀ k, k < n → ∃ u, runAt k s = .next u ∧ u.busy = true ∧ u.err = s.err
  err : t.err = s.err
  resetLow : ResetLow t

theorem BusyRun.nil {s : State w} (hr : ResetLow s) : BusyRun 0 s s := ⟨rfl, by simp, rfl, hr⟩

/-- No working phase writes `ERR` (R24). -/
@[simp] theorem workStep_err (s : State w) : (workStep s).err = s.err := by
  cases hp : s.phase <;> simp only [workStep, hp] <;>
    simp only [addRunStep, subNegStep, subRunStep, divOuterStep, divShiftStep, divFinStep] <;> (try split) <;> rfl

theorem BusyRun.single {s : State w} (hb : s.busy = true) (hr : ResetLow s) : BusyRun 1 s (hostMove (workStep s)) where
  run := by rw [run_succ_of_step (step_busy hb hr.1), run_zero]
  busy k hk := by
    obtain rfl : k = 0 := by omega
    exact ⟨s, rfl, hb, rfl⟩
  err := by simp
  resetLow := hr.hostMove (workStep_ports s) (workStep_host s)

theorem BusyRun.trans {m n : Nat} {s t u : State w} (h : BusyRun m s t) (h' : BusyRun n t u) : BusyRun (m + n) s u where
  run := by rw [run_add n h.run, h'.run]
  busy k hk := by
    by_cases hkm : k < m
    · exact h.busy k hkm
    · obtain ⟨v, hv, hb, he⟩ := h'.busy (k - m) (by omega)
      refine ⟨v, ?_, hb, he.trans h.err⟩
      rw [← Nat.add_sub_cancel' (Nat.le_of_not_lt hkm), run_add _ h.run, hv]
  err := h'.err.trans h.err
  resetLow := h'.resetLow

/-! The adder and the subtractor -/

theorem busy_of_adding {s : State w} (h : s.phase.adding = true) : s.busy = true := by
  cases hp : s.phase <;> simp_all [Phase.adding, State.busy, Phase.working]

/-- The adder's loop as a stretch of busy steps (R61). -/
theorem BusyRun.adderLoop {s : State w} (ha : s.phase.adding = true) (hr : ResetLow s) :
    ∃ t, BusyRun (adderItersUpTo 33 s.xa s.xb) s t ∧ t.regs = { s.regs with xa := s.xa + s.xb, xb := 0 } := by
  obtain ⟨⟨t, ht, hd⟩, hj⟩ := adder_loop 33 s (by omega) (LowZero.zero _) ha hr
  refine ⟨t, ⟨ht, ?_, congrArg BlockRegs.err hd.regs, hd.resetLow⟩, hd.regs⟩
  intro k hk
  obtain ⟨u, hu, hp, he⟩ := hj k (by omega)
  exact ⟨u, hu, busy_of_adding (by rw [hp]; exact ha), he⟩

/-- The finish of the last adder pass (R60, R86). -/
theorem workStep_finish_of_xb_zero {s : State w} (hp : s.phase = .addRun ∨ s.phase = .subRun) (hx : s.xb = 0) :
    workStep s = finish s.xa s := by
  rcases hp with hp | hp
  · simp [workStep, hp, addRunStep, hx]
  · simp [workStep, hp, subRunStep, hx]

/-- The hand-over between the two passes of `SUB` (R85). -/
theorem workStep_handOver {s : State w} (hp : s.phase = .subNeg) (hx : s.xb = 0) :
    workStep s = enter .subRun (setAdder (adderLoad s.sa s.xa) s) := by
  simp [workStep, hp, subNegStep, hx]

/-- The last adder pass, of `ADD` or of `SUB`, from any pair to `DONE` (R60, R61, R86). -/
theorem BusyRun.lastPass {s : State w} (hp : s.phase = .addRun ∨ s.phase = .subRun) (hr : ResetLow s) :
    ∃ t, BusyRun (adderItersUpTo 33 s.xa s.xb + 1) s t ∧
      t.regs = { s.regs with phase := .done, res := s.xa + s.xb, xa := s.xa + s.xb, xb := 0 } := by
  have ha : s.phase.adding = true := by rcases hp with hp | hp <;> rw [hp] <;> rfl
  obtain ⟨t, ht, hregs⟩ := BusyRun.adderLoop ha hr
  have htp : t.phase = s.phase := congrArg BlockRegs.phase hregs
  have hxa : t.xa = s.xa + s.xb := congrArg BlockRegs.xa hregs
  have hfin : workStep t = finish t.xa t :=
    workStep_finish_of_xb_zero (htp ▸ hp) (congrArg BlockRegs.xb hregs)
  refine ⟨_, ht.trans (.single (busy_of_adding (htp ▸ ha)) ht.resetLow), ?_⟩
  rw [hostMove_regs, hfin, hxa]
  change { t.regs with phase := .done, res := s.xa + s.xb } = _
  rw [hregs]

/-- The first pass of `SUB` and the hand-over, from any pair to `SUB_RUN` (R85, R88). -/
theorem BusyRun.firstPass {s : State w} (hp : s.phase = .subNeg) (hr : ResetLow s) :
    ∃ t, BusyRun (adderItersUpTo 33 s.xa s.xb + 1) s t ∧
      t.regs = { s.regs with
        phase := .subRun, xa := (adderLoad s.sa (s.xa + s.xb)).1, xb := (adderLoad s.sa (s.xa + s.xb)).2 } := by
  have ha : s.phase.adding = true := by rw [hp]; rfl
  obtain ⟨t, ht, hregs⟩ := BusyRun.adderLoop ha hr
  have htp : t.phase = s.phase := congrArg BlockRegs.phase hregs
  have hxa : t.xa = s.xa + s.xb := congrArg BlockRegs.xa hregs
  have hsa : t.sa = s.sa := congrArg BlockRegs.sa hregs
  have hover := workStep_handOver (htp.trans hp) (congrArg BlockRegs.xb hregs)
  refine ⟨_, ht.trans (.single (busy_of_adding (htp ▸ ha)) ht.resetLow), ?_⟩
  rw [hostMove_regs, hover, hxa, hsa]
  change { t.regs with
    phase := .subRun, xa := (adderLoad s.sa (s.xa + s.xb)).1, xb := (adderLoad s.sa (s.xa + s.xb)).2 } = _
  rw [hregs]

/-- `ADD` from the registers of its accepting step to `DONE` (R56, R63). -/
theorem add_completes (a b : Word) {s v : State w} (hv : v.regs = (addAccept a b (dropOutcome s)).regs)
    (hr : ResetLow v) :
    ∃ u, BusyRun (addSteps a b - 1) v u ∧
      u.regs = { s.regs with phase := .done, err := false, res := a + b, xa := a + b, xb := 0 } := by
  have hxa : v.xa = (adderLoad a b).1 := congrArg BlockRegs.xa hv
  have hxb : v.xb = (adderLoad a b).2 := congrArg BlockRegs.xb hv
  obtain ⟨u, hu, hregs⟩ := BusyRun.lastPass (.inl (congrArg BlockRegs.phase hv)) hr
  rw [hxa, hxb, adderLoad_sum] at hregs
  rw [hxa, hxb] at hu
  exact ⟨u, hu, by rw [hregs, hv]; rfl⟩

/-- `SUB` from the registers of its accepting step to `DONE` (R83, R89): `a + (~b + 1)`. -/
theorem sub_completes (a b : Word) {s v : State w} (hv : v.regs = (subAccept a b (dropOutcome s)).regs)
    (hr : ResetLow v) :
    ∃ u, BusyRun (subSteps a b - 1) v u ∧
      u.regs = { s.regs with phase := .done, err := false, res := a - b, xa := a - b, xb := 0, sa := a } := by
  have hxa : v.xa = (adderLoad (~~~b) 1).1 := congrArg BlockRegs.xa hv
  have hxb : v.xb = (adderLoad (~~~b) 1).2 := congrArg BlockRegs.xb hv
  have hsa : v.sa = a := congrArg BlockRegs.sa hv
  have hneg : ~~~b + 1 = -b := (BitVec.neg_eq_not_add b).symm
  obtain ⟨t, ht, htr⟩ := BusyRun.firstPass (congrArg BlockRegs.phase hv) hr
  rw [hxa, hxb, hsa, adderLoad_sum, hneg] at htr
  rw [hxa, hxb] at ht
  have htxa : t.xa = (adderLoad a (-b)).1 := congrArg BlockRegs.xa htr
  have htxb : t.xb = (adderLoad a (-b)).2 := congrArg BlockRegs.xb htr
  obtain ⟨u, hu, hregs⟩ := BusyRun.lastPass (.inr (congrArg BlockRegs.phase htr)) ht.resetLow
  rw [htxa, htxb, adderLoad_sum, ← BitVec.sub_eq_add_neg] at hregs
  rw [htxa, htxb] at hu
  have hcount : subSteps a b - 1 = adderIters (~~~b) 1 + 1 + (adderIters a (-b) + 1) := by
    unfold subSteps
    omega
  exact ⟨u, hcount ▸ ht.trans hu, by rw [hregs, htr, hv]; rfl⟩

/-! The divider -/

/-- The divider from `DIV_OUTER` to `DONE` (R75, R78): it leaves the quotient and the remainder of the magnitudes. -/
theorem BusyRun.divider (hw : 34 ≤ w) {s : State w} {A B : Nat} (hp : s.phase = .divOuter)
    (ho : OuterNat s.div B 0 A) (hr : ResetLow s) :
    ∃ t e, BusyRun (roundSteps (A / B) 32 + 2) s t ∧
      t.regs = { s.regs with phase := .done, res := low32 e.signedQuotient, div := e } ∧
      e.neg = s.div.neg ∧ OuterNat e B (A / B) (A % B) := by
  obtain ⟨e, hl, hneg, he⟩ := outer_loop hw (A / B) ho rfl
  obtain ⟨⟨t, ht, hregs, htr⟩, hj⟩ := hl.run s (by rw [hp]) hr
  have htp : t.phase = .divFin := congrArg BlockRegs.phase hregs
  have htd : t.div = e := congrArg BlockRegs.div hregs
  have hloop : BusyRun (roundSteps (A / B) 32 + 1) s t := by
    refine ⟨ht, fun k hk => ?_, congrArg BlockRegs.err hregs, htr⟩
    obtain ⟨u, hu, hup, hue⟩ := hj k hk
    exact ⟨u, hu, by rcases hup with h | h <;> simp [State.busy, h, Phase.working], hue⟩
  have hfin : workStep t = finish (low32 e.signedQuotient) t := by simp [workStep, htp, divFinStep, htd]
  have hbusy : t.busy = true := by simp [State.busy, htp, Phase.working]
  refine ⟨_, e, hloop.trans (.single hbusy htr), ?_, hneg, by simpa using he⟩
  rw [hostMove_regs, hfin]
  change { t.regs with phase := .done, res := low32 e.signedQuotient } = _
  rw [hregs]

/-- Negating and narrowing may be taken in either order (R73, R74). -/
theorem low32_signedQuotient (hw : 32 ≤ w) (d : DivRegs w) :
    low32 d.signedQuotient =
      if d.neg then -(BitVec.ofNat 32 d.quo.toNat) else BitVec.ofNat 32 d.quo.toNat := by
  have hlow (q : BitVec w) : low32 q = q.setWidth 32 := by simp [low32, BitVec.setWidth_eq_extractLsb' hw]
  have hquo : BitVec.ofNat 32 d.quo.toNat = d.quo.setWidth 32 := by simp
  rw [hlow, hquo, DivRegs.signedQuotient]
  split
  · exact BitVec.setWidth_neg_of_le hw
  · rfl

/-- Truncating division is the division of the magnitudes, negated iff the signs differ (R79). -/
theorem tdiv_eq_natAbs_div (x y : Int) :
    x.tdiv y =
      if decide (x < 0) ^^ decide (y < 0) then -((x.natAbs / y.natAbs : Nat) : Int) else (x.natAbs / y.natAbs : Nat) := by
  cases x with
  | ofNat m =>
    cases y with
    | ofNat n =>
      have hm : ¬((m : Int) < 0) := by omega
      have hn : ¬((n : Int) < 0) := by omega
      simp [Int.tdiv, hm, hn]
    | negSucc n => simp [Int.tdiv, Int.negSucc_lt_zero]
  | negSucc m =>
    cases y with
    | ofNat n => simp [Int.tdiv, Int.negSucc_lt_zero]
    | negSucc n => simp [Int.tdiv, Int.negSucc_lt_zero]

/-- The quotient of level F by its sign and its magnitude (R66, R69, R78). -/
theorem ofInt_tdiv_eq (a b : Word) :
    BitVec.ofInt 32 (a.toInt.tdiv b.toInt) =
      if quotientSign a b then -(BitVec.ofNat 32 (magQuotient a b)) else BitVec.ofNat 32 (magQuotient a b) := by
  have hsign : quotientSign a b = (decide (a.toInt < 0) ^^ decide (b.toInt < 0)) := by
    rw [← BitVec.msb_eq_toInt, ← BitVec.msb_eq_toInt]
    rfl
  rw [tdiv_eq_natAbs_div, ← hsign]
  change BitVec.ofInt 32 (if _ then -((magQuotient a b : Nat) : Int) else (magQuotient a b : Nat)) = _
  split
  · rw [BitVec.ofInt_neg, BitVec.ofInt_natCast]
  · rw [BitVec.ofInt_natCast]

/-- The accepting step of `DIV` with one of the three early outcomes ends the command (R67). -/
theorem divAccept_early {a b : Word} (h : b = 0 ∨ a = 0 ∨ b = 1) (s : State w) :
    ∃ v, (divAccept a b (dropOutcome s)).regs = { s.regs with phase := .done, err := decide (b = 0), res := v } ∧
      (b ≠ 0 → v = BitVec.ofInt 32 (a.toInt.tdiv b.toInt)) := by
  unfold divAccept
  by_cases hb : b = 0
  · exact ⟨_, by rw [if_pos hb, decide_eq_true hb]; rfl, fun h => absurd hb h⟩
  · by_cases ha : a = 0
    · exact ⟨0, by rw [if_neg hb, if_pos ha, decide_eq_false hb]; rfl, fun _ => by simp [ha]⟩
    · have hb1 : b = 1 := by tauto
      exact ⟨a, by rw [if_neg hb, if_neg ha, if_pos hb1, decide_eq_false hb]; rfl, fun _ => by simp [hb1]⟩

/-- The accepting step of `DIV` with none of the early outcomes loads the divider (R68). -/
theorem divAccept_load {a b : Word} (h : ¬(b = 0 ∨ a = 0 ∨ b = 1)) (s : State w) :
    divAccept a b s = enter .divOuter (setDiv (s.div.load a b) s) := by
  rw [not_or, not_or] at h
  obtain ⟨hb, ha, hb1⟩ := h
  rw [divAccept, if_neg hb, if_neg ha, if_neg hb1]

/-- `DIV` from the registers of its accepting step to `DONE` (R66, R78). -/
theorem div_completes (hw : 34 ≤ w) (a b : Word) {s v : State w} (hv : v.regs = (divAccept a b (dropOutcome s)).regs)
    (hr : ResetLow v) :
    ∃ u, BusyRun (divSteps a b - 1) v u ∧
      u.regs = { s.regs with phase := .done, err := decide (b = 0), res := u.res, div := u.div } ∧
      (b ≠ 0 → u.res = BitVec.ofInt 32 (a.toInt.tdiv b.toInt)) := by
  by_cases hearly : b = 0 ∨ a = 0 ∨ b = 1
  · obtain ⟨x, hregs, hx⟩ := divAccept_early hearly s
    have hcount : divSteps a b - 1 = 0 := by rw [divSteps, if_pos hearly]
    have hvr : v.res = x := congrArg BlockRegs.res (hv.trans hregs)
    have hvd : v.div = s.div := congrArg BlockRegs.div (hv.trans hregs)
    refine ⟨v, hcount ▸ .nil hr, ?_, fun hb => hvr.trans (hx hb)⟩
    rw [hv, hregs, hvr, hvd]
    rfl
  · have hb : b ≠ 0 := fun h => hearly (.inl h)
    have hcount : divSteps a b - 1 = roundSteps (magQuotient a b) 32 + 2 := by
      rw [divSteps, if_neg hearly]
      omega
    rw [divAccept_load hearly] at hv
    have hvd : v.div = s.div.load a b := congrArg BlockRegs.div hv
    obtain ⟨u, e, hu, hregs, hneg, he⟩ :=
      BusyRun.divider hw (congrArg BlockRegs.phase hv) (hvd ▸ load_outer hw s.div a b hb) hr
    have hur : u.res = low32 e.signedQuotient := congrArg BlockRegs.res hregs
    have hud : u.div = e := congrArg BlockRegs.div hregs
    have hsign : e.neg = quotientSign a b := by rw [hneg, hvd]; rfl
    refine ⟨u, hcount ▸ hu, ?_, fun _ => ?_⟩
    · rw [hregs, hv, hur, hud, decide_eq_false hb]
      rfl
    · rw [hur, low32_signedQuotient (by omega), hsign, he.quo_eq, ofInt_tdiv_eq]
      rfl

/-! Every command -/

theorem stepCount_pos (i : Instr) : 1 ≤ stepCount i := by
  cases i with
  | add a b => simp [stepCount, addSteps]
  | div a b =>
    simp only [stepCount, divSteps]
    split <;> omega
  | sub a b => simp [stepCount, subSteps]

/-- A block that is busy after an accepting step has dropped the previous outcome (R22, R24). -/
theorem exec_err_of_busy {i : Instr} {s t : State w} (h : execAt i s = .next t) (hb : t.busy = true) :
    t.err = false := by
  cases i with
  | add a b => cases h; rfl
  | sub a b => cases h; rfl
  | div a b =>
    cases h
    by_cases hearly : b = 0 ∨ a = 0 ∨ b = 1
    · obtain ⟨x, hregs, -⟩ := divAccept_early hearly s
      have hp : (divAccept a b (dropOutcome s)).phase = .done := congrArg BlockRegs.phase hregs
      simp [State.busy, hp, Phase.working] at hb
    · rw [divAccept_load hearly]
      rfl

/-- Every command, from the registers of its accepting step, is busy for the `N - 1` steps that are left and ends in `DONE`
with the outcome of level F (R11, R116), whatever the host has on the ports meanwhile except `rst`. -/
theorem command_completes (hw : 34 ≤ w) (i : Instr) {s t v : State w} (ht : execAt i s = .next t)
    (hv : v.regs = t.regs) (hr : ResetLow v) :
    ∃ u, BusyRun (stepCount i - 1) v u ∧ u.phase = .done ∧ u.outcome = some (levelF i) := by
  cases i with
  | add a b =>
    cases ht
    obtain ⟨u, hu, hregs⟩ := add_completes a b hv hr
    have hp : u.phase = .done := congrArg BlockRegs.phase hregs
    have he : u.err = false := congrArg BlockRegs.err hregs
    have hres : u.res = a + b := congrArg BlockRegs.res hregs
    exact ⟨u, hu, hp, by simp [State.outcome_of_done u hp, he, hres, levelF, fAdd, BitVec.ofInt_add]⟩
  | sub a b =>
    cases ht
    obtain ⟨u, hu, hregs⟩ := sub_completes a b hv hr
    have hp : u.phase = .done := congrArg BlockRegs.phase hregs
    have he : u.err = false := congrArg BlockRegs.err hregs
    have hres : u.res = a - b := congrArg BlockRegs.res hregs
    exact ⟨u, hu, hp, by
      simp [State.outcome_of_done u hp, he, hres, levelF, fSub, Int.sub_eq_add_neg, BitVec.ofInt_add, BitVec.ofInt_neg,
        BitVec.sub_eq_add_neg]⟩
  | div a b =>
    cases ht
    obtain ⟨u, hu, hregs, hres⟩ := div_completes hw a b hv hr
    have hp : u.phase = .done := congrArg BlockRegs.phase hregs
    have he : u.err = decide (b = 0) := congrArg BlockRegs.err hregs
    refine ⟨u, hu, hp, ?_⟩
    rw [State.outcome_of_done u hp, he]
    by_cases hb : b = 0
    · simp [levelF, fDiv, hb]
    · simp [levelF, fDiv, hres hb]

/-- Every command from a free state that requests it (R116): busy with `ERR` at 0 until its `N`-th step, then `DONE` with
the outcome of level F. -/
theorem requested_command_completes (hw : 34 ≤ w) {i : Instr} {s : State w} (hf : s.free = true) (hq : Requests i s)
    (hr : ResetLow s) :
    (∀ k, 1 ≤ k → k < stepCount i → ∃ t, runAt k s = .next t ∧ t.busy = true ∧ t.err = false) ∧
      ∃ t, runAt (stepCount i) s = .next t ∧ ResetLow t ∧ t.phase = .done ∧ t.outcome = some (levelF i) := by
  obtain ⟨t, ht, hports, hhost⟩ := exec_next i s
  have hs : stepAt s = .next (hostMove t) := by rw [step_request hf hq, ht]; rfl
  obtain ⟨u, hu, hp, ho⟩ := command_completes hw i ht (hostMove_regs t) (hr.hostMove hports hhost)
  refine ⟨fun k h1 hk => ?_, u, ?_, hu.resetLow, hp, ho⟩
  · obtain ⟨j, rfl⟩ : ∃ j, k = j + 1 := ⟨k - 1, by omega⟩
    obtain ⟨v, hv, hb, he⟩ := hu.busy j (by omega)
    have hb0 : t.busy = true := by
      obtain ⟨x, hx, hbx, -⟩ := hu.busy 0 (by omega)
      cases hx
      simpa [State.busy] using hbx
    exact ⟨v, by rw [run_succ_of_step hs, hv], hb, by simpa [exec_err_of_busy ht hb0] using he⟩
  · rw [← Nat.sub_add_cancel (stepCount_pos i), run_succ_of_step hs, hu.run]

theorem State.isDone_of_busy {s : State w} (h : s.busy = true) : s.isDone = false := by
  cases hp : s.phase <;> simp_all [State.busy, State.isDone, Phase.working]

/-- Settles O59: every stretch of a command is proved for the width as an argument, and the step at the default width is
`stepAt`. -/
theorem everyWidthHasTheSameOutcomes : Obligations.EveryWidthHasTheSameOutcomes := by
  refine ⟨fun s => by rw [step_eq_stepAt], fun w i s hw hf hq hr => ?_⟩
  obtain ⟨hbusy, t, ht, -, hp, ho⟩ := requested_command_completes hw hf hq hr
  refine ⟨fun k h1 hk => ?_, t, ht, by rw [State.busy, hp]; rfl, (State.isDone_iff t).2 hp, ho⟩
  obtain ⟨u, hu, hb, he⟩ := hbusy k h1 hk
  exact ⟨u, hu, hb, State.isDone_of_busy hb, he⟩

end Sys2Proof.Machine
end

section
/-! The state and the step (R16, R21 to R25, R29, R32, R33): the invariant of the block, what a step holds, reads and
writes, and what the output ports show. Apart from the theorems that settle a statement, everything holds at every
width of the divider, the invariant from 34 up. -/

namespace Sys2Proof.Machine

variable {w : Nat}

/-! The invariant reads `PHASE`, `ERR` and the divider's registers -/

@[simp] theorem blockInv_hostMove (s : State w) : BlockInv (hostMove s) ↔ BlockInv s := by simp [BlockInv]

/-- Outside the divider's phases the invariant is a claim about `ERR` alone (R24). -/
theorem BlockInv.of_not_dividing {s : State w} (he : s.err = true → s.phase = .done)
    (hp : s.free = true ∨ s.phase.adding = true) : BlockInv s := by
  refine ⟨he, ?_⟩
  cases h : s.phase <;> simp_all [State.free, State.busy, Phase.working, Phase.adding]

/-- A busy block shows no error (R24). -/
theorem BlockInv.err_of_busy {s : State w} (h : BlockInv s) (hb : s.busy = true) : s.err = false := by
  rw [← Bool.not_eq_true]
  intro he
  simp [State.busy, h.1 he, Phase.working] at hb

/-! The ranges of the divider's registers, as in Laws/Divider.lean (R75, R76) -/

theorem DivBounded.outerNat {d : DivRegs w} (h : DivBounded d) :
    OuterNat d d.dvs.toNat d.quo.toNat d.rem.toNat := by
  obtain ⟨hpos, hle, hbound⟩ := h
  exact ⟨rfl, rfl, rfl, hpos, hbound, hle⟩

theorem OuterNat.divBounded {d : DivRegs w} {B quo rem : Nat} (h : OuterNat d B quo rem) : DivBounded d := by
  refine ⟨?_, ?_, ?_⟩ <;> simp only [h.dvs_eq, h.quo_eq, h.rem_eq]
  · exact h.pos
  · exact h.boundB
  · exact h.bound

/-- The loaded registers (R68): with `QUO = 0` every power of two may still be contributed, `2^32` exceeds them all. -/
theorem decreasing_load (hw : 34 ≤ w) (d : DivRegs w) (a : Word) {b : Word} (hb : b ≠ 0) :
    Decreasing 32 (d.load a b) := by
  have h := load_outer hw d a b hb
  refine ⟨by simp [h.quo_eq], ?_⟩
  rw [h.rem_eq, h.dvs_eq]
  have := natAbs_toInt_le a
  have := natAbs_toInt_pos hb
  omega

/-- After the subtraction of the largest multiple that fits, the contributions still to come are below `2^k` (R75). -/
theorem decreasing_subtract {d e : DivRegs w} {j k : Nat} (hk : k < j) (h : Decreasing j d)
    (hrem : d.rem.toNat < 2 * (d.dvs.toNat * 2 ^ k))
    (he : OuterNat e d.dvs.toNat (d.quo.toNat + 2 ^ k) (d.rem.toNat - d.dvs.toNat * 2 ^ k)) : Decreasing k e := by
  refine ⟨?_, ?_⟩
  · rw [he.quo_eq]
    exact (Nat.dvd_add_self_right).2 ((Nat.pow_dvd_pow 2 hk.le).trans h.1)
  · have : 0 < d.dvs.toNat * 2 ^ k := Nat.mul_pos he.pos (Nat.two_pow_pos k)
    rw [he.rem_eq, he.dvs_eq]
    omega

/-! Every step keeps the invariant -/

theorem blockInv_resetAction (s : State w) : BlockInv (resetAction s) := .of_not_dividing (by simp) (.inl rfl)

/-- The step in `DIV_OUTER` (R71): a round starts at `k = 0`, below the bound `j` since `REM` is not below `DVS`. -/
theorem BlockInv.divOuterStep (hw : 34 ≤ w) {s : State w} (h : BlockInv s) (hp : s.phase = .divOuter) :
    BlockInv (divOuterStep s) := by
  have he := h.err_of_busy (by simp [State.busy, hp, Phase.working])
  simp only [BlockInv, hp] at h
  obtain ⟨-, hbd, j, hj⟩ := h
  rcases outer_step hw hbd.outerNat with ⟨hc, hd, hs⟩ | ⟨hc, hd⟩
  · have hj0 : 0 < j := by
      refine Nat.pos_of_ne_zero fun h0 => ?_
      have := hj.2
      simp only [h0, pow_zero, mul_one] at this
      omega
    simp only [Machine.divOuterStep, hd]
    exact ⟨by simp [he], hs.divBounded, j, 0, hj0, hj, hs.mul_eq, hs.tmp_eq, hs.tmp_eq.trans_le hs.le⟩
  · simp only [Machine.divOuterStep, hd]
    exact ⟨by simp [he], hbd, hc⟩

/-- The step in `DIV_SHIFT` (R72): a shift raises `k`, which stays below `j` since the multiple still fits, and a
subtraction makes `k` the new bound. -/
theorem BlockInv.divShiftStep (hw : 34 ≤ w) {s : State w} (h : BlockInv s) (hp : s.phase = .divShift) :
    BlockInv (divShiftStep s) := by
  have he := h.err_of_busy (by simp [State.busy, hp, Phase.working])
  simp only [BlockInv, hp] at h
  obtain ⟨-, hbd, j, k, hkj, hj, hmul, htmp, hle⟩ := h
  have hs : ShiftNat s.div s.div.dvs.toNat s.div.quo.toNat s.div.rem.toNat k :=
    { hbd.outerNat with tmp_eq := htmp, mul_eq := hmul, le := htmp ▸ hle }
  rcases shift_step hw hs with ⟨hc, hd, hs'⟩ | ⟨hc, hd, ho⟩
  · have hk : k + 1 < j := by
      refine lt_of_le_of_ne hkj fun h1 => ?_
      have := hj.2
      rw [← h1, pow_succ] at this
      linarith
    simp only [Machine.divShiftStep, hd]
    exact ⟨by simp [he], hs'.divBounded, j, k + 1, hk, hj, hs'.mul_eq, hs'.tmp_eq, hs'.tmp_eq.trans_le hs'.le⟩
  · simp only [Machine.divShiftStep, hd]
    exact ⟨by simp [he], ho.divBounded, k, decreasing_subtract hkj hj hc ho⟩

/-- The adder's phases lead to one another or to `DONE`, never into the divider's (R60, R85, R86). -/
theorem workStep_phase_of_adding {s : State w} (ha : s.phase.adding = true) :
    (workStep s).free = true ∨ (workStep s).phase.adding = true := by
  cases hp : s.phase <;> simp only [hp, Phase.adding, Bool.false_eq_true] at ha <;>
    simp only [workStep, hp, addRunStep, subNegStep, subRunStep] <;> split <;>
    simp [State.free_iff, Phase.adding, hp]

theorem BlockInv.workStep (hw : 34 ≤ w) {s : State w} (h : BlockInv s) (hb : s.busy = true) :
    BlockInv (workStep s) := by
  have he : s.err = false := h.err_of_busy hb
  have adding (ha : s.phase.adding = true) : BlockInv (Machine.workStep s) :=
    .of_not_dividing (by simp [he]) (workStep_phase_of_adding ha)
  cases hp : s.phase with
  | idle | done => simp [State.busy, hp, Phase.working] at hb
  | addRun | subNeg | subRun => exact adding (by rw [hp]; rfl)
  | divOuter => simpa [Machine.workStep, hp] using h.divOuterStep hw hp
  | divShift => simpa [Machine.workStep, hp] using h.divShiftStep hw hp
  | divFin => exact .of_not_dividing (by simp [he]) (.inl (by simp [Machine.workStep, hp, divFinStep, State.free_iff]))

/-- Every accepting step establishes the invariant, from any state (R22, R59, R67, R68, R84). -/
theorem blockInv_exec (hw : 34 ≤ w) {i : Instr} {s t : State w} (h : execAt i s = .next t) : BlockInv t := by
  cases i with
  | add a b => cases h; exact .of_not_dividing (by simp [addAccept]) (.inr rfl)
  | sub a b => cases h; exact .of_not_dividing (by simp [subAccept]) (.inr rfl)
  | div a b =>
    cases h
    by_cases hearly : b = 0 ∨ a = 0 ∨ b = 1
    · obtain ⟨v, hregs, -⟩ := divAccept_early hearly s
      have hp : (divAccept a b (dropOutcome s)).phase = .done := congrArg BlockRegs.phase hregs
      exact .of_not_dividing (fun _ => hp) (.inl ((State.free_iff _).2 (.inr hp)))
    · have hb : b ≠ 0 := fun h0 => hearly (.inl h0)
      rw [divAccept_load hearly]
      exact ⟨by simp, (load_outer hw _ a b hb).divBounded, 32, decreasing_load hw _ a hb⟩

theorem BlockInv.stepAt (hw : 34 ≤ w) {s t : State w} (h : BlockInv s) (hs : stepAt s = .next t) : BlockInv t := by
  rcases step_cases hs with ⟨-, rfl⟩ | ⟨-, -, -, rfl⟩ | ⟨-, hb, rfl⟩ | ⟨i, u, -, -, hu, rfl⟩ <;>
    rw [blockInv_hostMove]
  · exact blockInv_resetAction s
  · exact h
  · exact h.workStep hw hb
  · exact blockInv_exec hw hu

/-- Settles O51: reset and every accepting step establish the invariant, and the work of every phase keeps it. -/
theorem stepKeepsTheInvariant : Obligations.StepKeepsTheInvariant := by
  intro s t h hs
  rw [step_eq_stepAt] at hs
  exact h.stepAt (by decide) hs

/-- Settles O52: the block is in `IDLE` with `ERR` at 0. -/
theorem invariantHoldsAtReset : Obligations.InvariantHoldsAtReset :=
  BlockInv.of_not_dividing (by simp) (.inl rfl)

/-! What the output ports show is a function of the registers (R16) -/

theorem portOut_of_regs {s t : State w} (h : s.regs = t.regs) : s.portOut = t.portOut := by
  obtain ⟨hp, he, hres, -⟩ := (State.regs_eq_iff s t).1 h
  simp [State.portOut, State.busy, State.isDone, hp, he, hres]

theorem outcome_of_regs {s t : State w} (h : s.regs = t.regs) : s.outcome = t.outcome := by
  obtain ⟨hp, he, hres, -⟩ := (State.regs_eq_iff s t).1 h
  simp [State.outcome, State.isDone, hp, he, hres]

theorem result?_of_not_done {s : State w} (h : s.phase ≠ .done) : s.result? = none := by
  simp [State.result?, State.resultSpecified, State.isDone, h]

theorem State.status_of_idle {s : State w} (hp : s.phase = .idle) (he : s.err = false) : s.status = 0b000#3 := by
  have hd : s.isDone = false := by simp [State.isDone, hp]
  simp [State.status, State.busy, Phase.working, hp, hd, he]

theorem State.status_of_busy {s : State w} (hb : s.busy = true) (he : s.err = false) : s.status = 0b100#3 := by
  simp [State.status, hb, State.isDone_of_busy hb, he]

/-- In `DONE` the status tells the two kinds of outcome apart (R25). -/
theorem State.status_of_done {s : State w} (hp : s.phase = .done) :
    s.status = if s.outcome = some .divisionByZero then 0b011#3 else 0b010#3 := by
  rw [State.outcome_of_done s hp]
  cases he : s.err <;> simp [State.status, State.busy, State.isDone, Phase.working, hp, he]

theorem State.outcome_of_busy {s : State w} (hb : s.busy = true) : s.outcome = none := by
  refine State.outcome_of_not_done s fun hp => ?_
  simp [State.busy, hp, Phase.working] at hb

/-- Settles O17: by the phase, free without an outcome, busy, or in `DONE` with either outcome. -/
theorem statusHasFourLegalValues : Obligations.StatusHasFourLegalValues := by
  intro s h
  by_cases hd : s.phase = .done
  · rw [State.status_of_done hd, State.outcome_of_done s hd]
    cases s.err <;> simp [hd, Phase.working]
  · have he : s.err = false := by
      rw [← Bool.not_eq_true]
      exact fun he => hd (h he)
    by_cases hi : s.phase = .idle
    · simp [State.status_of_idle hi he, hi, Phase.working]
    · have hb : s.phase.working = true := by cases hp : s.phase <;> simp_all [Phase.working]
      simp [State.status_of_busy hb he, hd, hi, hb]

/-- Settles O13: reset writes `PHASE` and `ERR`, and the host's move keeps both. -/
theorem resetValues : Obligations.ResetValues := by
  refine ⟨fun s hr => ⟨hostMove (resetAction s), ?_, by simp, by simp, ?_⟩, rfl, rfl, rfl, rfl, rfl, rfl⟩
  · rw [step_eq_stepAt, step_reset hr]
  · refine ⟨?_, ?_, ?_, result?_of_not_done (by simp)⟩ <;>
      simp [State.portOut, State.busy, State.isDone, Phase.working]

/-! A free block without a request (R23) -/

theorem StartLow.hostMove {s : State w} (h : StartLow s) : StartLow (hostMove s) :=
  hostMove_forall (fun p => p.start = false) s h

/-- Any number of steps without reset and request changes no register (R23). -/
theorem run_hold (n : Nat) {s : State w} (hf : s.free = true) (hr : ResetLow s) (hs : StartLow s) :
    ∃ t, runAt n s = .next t ∧ t.regs = s.regs := by
  induction n generalizing s with
  | zero => exact ⟨s, rfl, rfl⟩
  | succ n ih =>
    have hf' : (hostMove s).free = true := by simpa [State.free, State.busy] using hf
    obtain ⟨t, ht, hregs⟩ := ih hf' (hr.hostMove rfl rfl) hs.hostMove
    exact ⟨t, by rw [run_succ_of_step (step_hold hf hr.1 hs.1), ht], hregs.trans (hostMove_regs s)⟩

/-- Settles O9: the registers are held by the step and, by induction, by a run, and the ports show registers only. -/
theorem stepWithoutRequestHoldsEverything : Obligations.StepWithoutRequestHoldsEverything := by
  intro s hf
  rw [step_eq_stepAt, run_eq_runAt]
  refine ⟨fun hr hs => ?_, fun hr hs n => ?_⟩
  · have h := hostMove_regs s
    exact ⟨_, step_hold hf hr hs, h, portOut_of_regs h, outcome_of_regs h⟩
  · obtain ⟨t, ht, h⟩ := run_hold n hf hr hs
    exact ⟨t, ht, h, portOut_of_regs h, outcome_of_regs h⟩

/-! What a step reads (R29) -/

theorem DefinedAgree.hostMove {s t : State w} (h : DefinedAgree s t) : DefinedAgree (hostMove s) (hostMove t) := by
  obtain ⟨hp, he, hports, hhost, hregs⟩ := h
  exact ⟨by simpa, by simpa, by rw [hostMove_ports, hostMove_ports, hports, hhost], by simp [hhost], by simpa⟩

theorem DefinedAgree.free_eq {s t : State w} (h : DefinedAgree s t) : s.free = t.free := by
  simp [State.free, State.busy, h.1]

/-- After reset nothing but `PHASE` and `ERR` is defined (R33). -/
theorem definedAgree_resetAction {s t : State w} (hports : s.ports = t.ports) (hhost : s.host = t.host) :
    DefinedAgree (resetAction s) (resetAction t) := ⟨rfl, rfl, hports, hhost, trivial⟩

/-- An accepting step reads no register: two states with the same host side agree after it on all it defines (R22). -/
theorem exec_definedAgree (i : Instr) {s t : State w} (hports : s.ports = t.ports) (hhost : s.host = t.host) :
    ∃ u v, execAt i s = .next u ∧ execAt i t = .next v ∧ DefinedAgree u v := by
  cases i with
  | add a b => exact ⟨_, _, rfl, rfl, rfl, rfl, hports, hhost, rfl, rfl⟩
  | sub a b => exact ⟨_, _, rfl, rfl, rfl, rfl, hports, hhost, rfl, rfl, rfl⟩
  | div a b =>
    refine ⟨_, _, rfl, rfl, ?_⟩
    unfold divAccept
    by_cases hb : b = 0
    · simp only [if_pos hb]
      exact ⟨rfl, rfl, hports, hhost, by simp⟩
    by_cases ha : a = 0
    · simp only [if_neg hb, if_pos ha]
      exact ⟨rfl, rfl, hports, hhost, fun _ => rfl⟩
    by_cases hb1 : b = 1
    · simp only [if_neg hb, if_neg ha, if_pos hb1]
      exact ⟨rfl, rfl, hports, hhost, fun _ => rfl⟩
    · simp only [if_neg hb, if_neg ha, if_neg hb1]
      exact ⟨rfl, rfl, hports, hhost, rfl, rfl, rfl, rfl⟩

/-- The work of a phase reads the registers R29 lists for it and defines those of the phase it enters. -/
theorem DefinedAgree.workStep {s t : State w} (h : DefinedAgree s t) (hb : s.busy = true) :
    DefinedAgree (workStep s) (workStep t) := by
  obtain ⟨hp, he, hports, hhost, hregs⟩ := h
  cases hs : s.phase with
  | idle | done => simp [State.busy, hs, Phase.working] at hb
  | addRun | subRun =>
    simp only [hs] at hregs
    obtain ⟨hxa, hxb⟩ := hregs
    simp only [Machine.workStep, ← hp, hs, addRunStep, subRunStep, hxa, hxb]
    split <;> simp [DefinedAgree, ← hp, hs, he, hports, hhost]
  | subNeg =>
    simp only [hs] at hregs
    obtain ⟨hxa, hxb, hsa⟩ := hregs
    simp only [Machine.workStep, ← hp, hs, subNegStep, hxa, hxb, hsa]
    split <;> simp [DefinedAgree, ← hp, hs, he, hports, hhost, hsa]
  | divOuter =>
    simp only [hs] at hregs
    obtain ⟨hneg, hrem, hdvs, hquo⟩ := hregs
    simp only [Machine.workStep, ← hp, hs, divOuterStep, divLoopStep, DivRegs.another, hrem, hdvs]
    by_cases hc : t.div.dvs.sle t.div.rem = true
    · simp [DefinedAgree, DivRegs.startRound, hc, he, hports, hhost, hneg, hrem, hdvs, hquo]
    · simp [DefinedAgree, hc, he, hports, hhost, hneg, hrem, hdvs, hquo]
  | divShift =>
    simp only [hs] at hregs
    simp only [Machine.workStep, ← hp, hs, divShiftStep, divLoopStep, hregs]
    split <;> simp [DefinedAgree, he, hports, hhost]
  | divFin =>
    simp only [hs] at hregs
    obtain ⟨hneg, -, -, hquo⟩ := hregs
    simp [Machine.workStep, ← hp, hs, divFinStep, DivRegs.signedQuotient, DefinedAgree, he, hports, hhost, hneg, hquo]

theorem op_reserved_or_requests {s : State w} (hr : s.ports.rst = false) (hs : s.ports.start = true) :
    s.ports.op = 0b11#2 ∨ ∃ i, Requests i s := by
  rcases decodeCommand_total s.ports.command with ⟨i, hd⟩ | hd
  · exact .inr ⟨i, hr, hs, (toCommand_of_decodeCommand hd).symm⟩
  · exact .inl ((decodeCommand_rejected_iff _).1 hd)

/-- Two states that agree on the defined registers take alike steps (R29). -/
theorem DefinedAgree.stepAt {s t : State w} (h : DefinedAgree s t) :
    (stepAt s = .refused .reservedOp ∧ stepAt t = .refused .reservedOp) ∨
      ∃ s' t', stepAt s = .next s' ∧ stepAt t = .next t' ∧ DefinedAgree s' t' := by
  have ⟨_, _, hports, hhost, _⟩ := h
  cases hr : s.ports.rst with
  | true =>
    exact .inr ⟨_, _, step_reset hr, step_reset (hports ▸ hr), (definedAgree_resetAction hports hhost).hostMove⟩
  | false =>
    have hr' : t.ports.rst = false := hports ▸ hr
    cases hf : s.free with
    | false =>
      have hb : s.busy = true := by simp [State.busy_eq_not_free, hf]
      have hb' : t.busy = true := by simp [State.busy_eq_not_free, ← h.free_eq, hf]
      exact .inr ⟨_, _, step_busy hb hr, step_busy hb' hr', (h.workStep hb).hostMove⟩
    | true =>
      have hf' : t.free = true := h.free_eq ▸ hf
      cases hs : s.ports.start with
      | false => exact .inr ⟨_, _, step_hold hf hr hs, step_hold hf' hr' (hports ▸ hs), h.hostMove⟩
      | true =>
        rcases op_reserved_or_requests hr hs with ho | ⟨i, hq⟩
        · exact .inl ⟨step_refused hf hr hs ho, step_refused hf' hr' (hports ▸ hs) (hports ▸ ho)⟩
        · obtain ⟨u, v, hu, hv, huv⟩ := exec_definedAgree i hports hhost
          have hq' : Requests i t := by rwa [Requests, ← hports]
          exact .inr ⟨_, _, by rw [step_request hf hq, hu]; rfl, by rw [step_request hf' hq', hv]; rfl, huv.hostMove⟩

/-- Settles O11: reset and accept read no register, and the work of a phase reads those R29 lists for it. -/
theorem onlyDefinedRegistersAreRead : Obligations.OnlyDefinedRegistersAreRead := by
  intro s t h
  rw [step_eq_stepAt]
  exact h.stepAt

/-! The flag `ERR` (R24) -/

/-- Which accepting step sets `ERR` (R22, R24, R67). -/
theorem exec_err_iff {i : Instr} {s t : State w} (h : execAt i s = .next t) :
    t.err = true ↔ i.toCommand.op = opDiv ∧ i.toCommand.b = 0 := by
  cases i with
  | add a b => cases h; simp [addAccept, Instr.toCommand, opAdd, opDiv]
  | sub a b => cases h; simp [subAccept, Instr.toCommand, opSub, opDiv]
  | div a b =>
    cases h
    have he : (divAccept a b (dropOutcome s)).err = decide (b = 0) := by
      by_cases hearly : b = 0 ∨ a = 0 ∨ b = 1
      · obtain ⟨v, hregs, -⟩ := divAccept_early hearly s
        exact congrArg BlockRegs.err hregs
      · rw [divAccept_load hearly, decide_eq_false fun hb => hearly (.inl hb)]
        rfl
    simp [he, Instr.toCommand]

/-- What a step writes to `ERR` (R24). -/
theorem step_err {s t : State w} (h : stepAt s = .next t) :
    (s.ports.rst = true → t.err = false) ∧
    (s.accepting = true → (t.err = true ↔ s.ports.op = opDiv ∧ s.ports.b = 0)) ∧
    (s.ports.rst = false → s.accepting = false → t.err = s.err) := by
  rcases step_cases h with ⟨hr, rfl⟩ | ⟨hr, hf, hs, rfl⟩ | ⟨hr, hb, rfl⟩ | ⟨i, u, hf, ⟨hr, hs, hc⟩, hu, rfl⟩
  · simp [State.accepting, hr]
  · simp [State.accepting, hr, hs]
  · simp [State.accepting, State.free, hr, hb]
  · have ho : i.toCommand.op = s.ports.op := by rw [← hc]; rfl
    have hbz : i.toCommand.b = s.ports.b := by rw [← hc]; rfl
    have he := exec_err_iff hu
    rw [ho, hbz] at he
    simp [State.accepting, hr, hf, hs, he]

/-- The work of a phase carries `ERR` along unread (R24). -/
theorem workStep_with_err (s : State w) (e : Bool) : workStep { s with err := e } = { workStep s with err := e } := by
  obtain ⟨phase⟩ := s
  cases phase with
  | addRun => simp only [workStep, addRunStep]; split <;> rfl
  | subNeg => simp only [workStep, subNegStep]; split <;> rfl
  | subRun => simp only [workStep, subRunStep]; split <;> rfl
  | idle | divOuter | divShift | divFin | done => rfl

theorem exec_with_err (i : Instr) (s : State w) (e : Bool) : execAt i { s with err := e } = execAt i s := by
  cases i <;> rfl

theorem hostMove_with_err (s : State w) (e : Bool) : hostMove { s with err := e } = { hostMove s with err := e } := by
  cases hh : s.host <;> simp [hostMove, hh]

/-- No step reads `ERR` (R24): with another `ERR` it does the same, and shows the same `ERR` wherever it writes one. -/
theorem step_with_err {s t : State w} (e : Bool) (h : stepAt s = .next t) :
    ∃ e', stepAt { s with err := e } = .next { t with err := e' } ∧
      ((s.ports.rst = true ∨ s.accepting = true) → e' = t.err) := by
  rcases step_cases h with ⟨hr, rfl⟩ | ⟨hr, hf, hs, rfl⟩ | ⟨hr, hb, rfl⟩ | ⟨i, u, hf, hq, hu, rfl⟩
  · exact ⟨_, step_reset (s := { s with err := e }) hr, fun _ => rfl⟩
  · refine ⟨e, ?_, by simp [State.accepting, hr, hs]⟩
    rw [step_hold (s := { s with err := e }) hf hr hs, hostMove_with_err]
  · refine ⟨e, ?_, by simp [State.accepting, State.free, hr, hb]⟩
    rw [step_busy (s := { s with err := e }) hb hr, workStep_with_err, hostMove_with_err]
  · refine ⟨_, ?_, fun _ => rfl⟩
    rw [step_request (s := { s with err := e }) hf hq, exec_with_err, hu]
    rfl

/-- Settles O16: `step_err` says what a step writes to `ERR`, `step_with_err` that it reads none. -/
theorem errIsWrittenOnlyByResetAndAccept : Obligations.ErrIsWrittenOnlyByResetAndAccept := by
  unfold Obligations.ErrIsWrittenOnlyByResetAndAccept
  rw [step_eq_stepAt]
  refine ⟨fun s t h => step_err h, rfl, fun s t hp => ?_, fun s t e h => ?_⟩
  · simp [State.busy, State.isDone, hp]
  · obtain ⟨e', hu, he⟩ := step_with_err e h
    exact ⟨_, hu, rfl, rfl, rfl, rfl, rfl, rfl, he⟩

/-! The request of a command (R22, R32) -/

/-- Settles O54: before its last step the command shows `busy` alone, after it the outcome of level F, and neither depends
on the state it was requested in. -/
theorem outcomeDependsOnTheCommandAlone : Obligations.OutcomeDependsOnTheCommandAlone := by
  intro i s t hfs hft hqs hqt hrs hrt k h1 hk
  rw [run_eq_runAt]
  obtain ⟨hbs, s', hs, -, hps, hos⟩ := requested_command_completes (by decide) hfs hqs hrs
  obtain ⟨hbt, t', ht, -, hpt, hot⟩ := requested_command_completes (by decide) hft hqt hrt
  rcases Nat.lt_or_eq_of_le hk with hlt | rfl
  · obtain ⟨u, hu, hub, hue⟩ := hbs k h1 hlt
    obtain ⟨v, hv, hvb, hve⟩ := hbt k h1 hlt
    exact ⟨u, v, hu, hv, by rw [State.status_of_busy hub hue, State.status_of_busy hvb hve],
      by rw [State.outcome_of_busy hub, State.outcome_of_busy hvb]⟩
  · exact ⟨s', t', hs, ht, by rw [State.status_of_done hps, State.status_of_done hpt, hos, hot], hos.trans hot.symm⟩

theorem present_free (p : PortIn) (s : State w) : (present p s).free = true := by
  cases hp : s.phase <;> simp [present, State.free, State.busy, Phase.working, hp]

/-- A written word that decodes is the request of its command (R48, R115). -/
theorem requests_present_requestWord {i : Instr} {nbits x : Nat} (s : State w) (h : decodeTableWord nbits x = some i) :
    Requests i (present (requestWord nbits x) s) := by
  have hd : decodeNat (x % 2 ^ nbits) = .command i := by
    unfold decodeTableWord at h
    split at h
    · cases h; assumption
    · cases h
  have hfit : fitsCmdWord (x % 2 ^ nbits) = true := by
    by_contra hn
    simp [decodeNat, hn] at hd
  have hdec : decodeCommand (unpack (BitVec.ofNat 66 (x % 2 ^ nbits))) = .command i := by
    simpa [decodeNat, hfit, decode] using hd
  have hports : (present (requestWord nbits x) s).ports = PortIn.request i.toCommand := by
    rw [present_ports, requestWord, if_pos hfit, toCommand_of_decodeCommand hdec]
  rw [Requests, hports]
  exact ⟨rfl, rfl, rfl⟩

/-- Settles O6: a request whose word decodes is accepted as that command, and `withFetchWord` makes one of any word. -/
theorem stepRunsTheDecodedCommand : Obligations.StepRunsTheDecodedCommand := by
  unfold Obligations.StepRunsTheDecodedCommand
  rw [step_eq_stepAt, exec_eq_execAt]
  refine ⟨fun i s hf hr hs hd => ?_, fun t => ?_, fun i s x h => ?_⟩
  · rw [decode, unpack_pack] at hd
    exact step_request hf ⟨hr, hs, (toCommand_of_decodeCommand hd).symm⟩
  · exact ⟨hostMove_regs t, hostMove_draws t, hostMove_of_nil t, fun p rest hh => by simp [hostMove_ports, hh]⟩
  · exact ⟨present_free _ s, step_request (present_free _ s) (requests_present_requestWord s h)⟩

end Sys2Proof.Machine
end

section
/-! The instances of a system (R42, R105). `System.stepAt_eq_next_iff` says once what a step of one instance can do. -/

namespace Sys2Proof.Machine

variable {n w : Nat} {j k : Fin n} {v v' : System n w}

/-- A step of instance `k` is a step of its own state, stored in its own place (R42). -/
theorem System.stepAt_eq_next_iff :
    System.stepAt k v = .next v' ↔ ∃ s, Machine.stepAt v[k] = .next s ∧ v' = v.set k s := by
  rw [System.stepAt]
  cases Machine.stepAt v[k] <;> simp [eq_comm]

/-- The stored state leaves every other instance as it is (R105). -/
theorem System.getElem_set_of_ne (h : j ≠ k) (v : System n w) (s : State w) : (v.set j s)[k] = v[k] :=
  Vector.getElem_set_ne j.isLt k.isLt (Fin.val_ne_of_ne h)

/-- Settles O58: each of the two steps stores into its own place, so neither reads what the other wrote, and the two
stores commute. -/
theorem instancesAreIndependent : Obligations.InstancesAreIndependent := by
  intro n j k v v' hjk hj
  rw [step_eq_stepAt]
  obtain ⟨s, hs, rfl⟩ := System.stepAt_eq_next_iff.mp hj
  refine ⟨by simpa using hs, System.getElem_set_of_ne hjk v s, fun w hk => ?_⟩
  obtain ⟨t, ht, rfl⟩ := System.stepAt_eq_next_iff.mp hk
  rw [System.getElem_set_of_ne hjk] at ht
  refine ⟨v.set k t, System.stepAt_eq_next_iff.mpr ⟨t, ht, rfl⟩, System.stepAt_eq_next_iff.mpr ⟨s, ?_, ?_⟩⟩
  · rw [System.getElem_set_of_ne hjk.symm, hs]
  · exact Vector.set_comm s t (Fin.val_ne_of_ne hjk)

end Sys2Proof.Machine
end

section
/-! The command encoding (R46 to R54): decoder and encoder are inverse to each other on words and on numbers, and what the
top two bits and the written form stand for. -/

namespace Sys2Proof

/-! The decoder on words (R48) -/

/-- What decodes to a command: the words whose fields are the command's triple. -/
theorem decode_eq_command_iff_unpack {w : CmdWord} {i : Instr} : decode w = .command i ↔ unpack w = i.toCommand where
  mp h := (Machine.toCommand_of_decodeCommand h).symm
  mpr h := by rw [decode, h, Machine.decodeCommand_toCommand]

/-- The decoder and the encoder are inverse to each other: `unpack` and `pack` are, and so are the triples. -/
theorem decode_eq_command_iff {w : CmdWord} {i : Instr} : decode w = .command i ↔ encode i = w := by
  rw [decode_eq_command_iff_unpack, encode]
  constructor
  · intro h
    rw [← h, pack_unpack]
  · rintro rfl
    exact unpack_pack _

theorem decode_encode (i : Instr) : decode (encode i) = .command i := decode_eq_command_iff.2 rfl

/-! The decoder on numbers (R48, R53) -/

/-- A number decodes to a command exactly when it is the number of the command's word (assumption 17). -/
theorem decodeNat_eq_command_iff {n : Nat} {i : Instr} : decodeNat n = .command i ↔ (encode i).toNat = n := by
  by_cases hn : n < 2 ^ 66
  · have hfit : fitsCmdWord n = true := decide_eq_true hn
    rw [decodeNat, if_pos hfit, decode_eq_command_iff, ← BitVec.toNat_inj, BitVec.toNat_ofNat, Nat.mod_eq_of_lt hn]
  · have hfit : ¬fitsCmdWord n = true := by simpa [fitsCmdWord] using hn
    have hw := (encode i).isLt
    simp only [decodeNat, if_neg hfit, reduceCtorEq, false_iff]
    omega

/-- Settles O1: `decode_eq_command_iff` and its form on numbers, read at the command's own word. -/
theorem decodeOfEncodeIsTheCommand : Obligations.DecodeOfEncodeIsTheCommand := fun i =>
  ⟨decode_encode i, decodeNat_eq_command_iff.2 rfl, Machine.decodeCommand_toCommand i⟩

/-- Settles O2: the other direction of the two equivalences. -/
theorem oneWordForEachCommand : Obligations.OneWordForEachCommand :=
  ⟨fun _ _ h => decode_eq_command_iff.1 h, fun _ _ h => decodeNat_eq_command_iff.1 h⟩

/-- Settles O4: each of the three words is the encoder's word of its command. -/
theorem workedWordsDecode : Obligations.WorkedWordsDecode :=
  ⟨decode_eq_command_iff.2 (by decide), decode_eq_command_iff.2 (by decide), decode_eq_command_iff.2 (by decide)⟩

/-! The operation select (R47, R51) -/

/-- The fields of a word from its number (R46). -/
theorem unpack_eq_ofNat (w : CmdWord) :
    unpack w = ⟨BitVec.ofNat 2 (w.toNat / 2 ^ 64), BitVec.ofNat 32 (w.toNat / 2 ^ 32), BitVec.ofNat 32 w.toNat⟩ := by
  have hop : (unpack w).op = BitVec.ofNat 2 (w.toNat / 2 ^ 64) := by
    rw [← toNat_unpack_op, BitVec.ofNat_toNat, BitVec.setWidth_eq]
  have ha : (unpack w).a = BitVec.ofNat 32 (w.toNat / 2 ^ 32) := BitVec.eq_of_toNat_eq (toNat_unpack_a w)
  have hb : (unpack w).b = BitVec.ofNat 32 w.toNat := BitVec.eq_of_toNat_eq (toNat_unpack_b w)
  rw [← hop, ← ha, ← hb]

theorem decode_rejected_iff (w : CmdWord) : decode w = .rejected .reservedOp ↔ w.toNat / 2 ^ 64 = 3 := by
  rw [decode, Machine.decodeCommand_rejected_iff, ← BitVec.toNat_inj, toNat_unpack_op]
  rfl

/-- Settles O3: with its top two bits known, a word has the fields of the command they select. -/
theorem topTwoBitsSelectTheCommand : Obligations.TopTwoBitsSelectTheCommand := by
  intro w a b
  refine ⟨fun h => ?_, fun h => ?_, fun h => ?_, (decode_rejected_iff w).symm⟩ <;>
    rw [decode_eq_command_iff_unpack, unpack_eq_ofNat, h] <;> rfl

/-! The written form (R54) -/

/-- The word of a command as a number: its `op`, then its two operands (R47, R48). -/
theorem toNat_encode (i : Instr) :
    (encode i).toNat = i.tableOp * 2 ^ 64 + i.toCommand.a.toNat * 2 ^ 32 + i.toCommand.b.toNat := by
  rw [encode, toNat_pack]
  cases i <;> rfl

/-- Every integer of the range is a literal, for the pattern that R54 gives it (assumption 14). -/
theorem exists_literal {n : Int} (hlo : -(2 ^ 31) ≤ n) (hhi : n < 2 ^ 32) :
    ∃ v, literal n = some v ∧ v.toNat = (if 0 ≤ n then n else 2 ^ 32 + n).toNat := by
  refine ⟨BitVec.ofInt 32 n, if_pos ⟨hlo, hhi⟩, ?_⟩
  rw [BitVec.toNat_ofInt]
  split <;> omega

/-- A written form whose literals are the operands of a command, under its mnemonic, stands for that command. -/
theorem assemble_of_literals {x y : Int} (i : Instr) (hx : literal x = some i.toCommand.a)
    (hy : literal y = some i.toCommand.b) : assemble i.mnemonic x y = some i := by
  cases i <;> simp_all [assemble, Instr.toCommand, Instr.mnemonic]

/-- Settles O5: the literals give the operands' patterns, and the command of each mnemonic is written with its `op`
before them. -/
theorem writtenFormStandsForTheWord : Obligations.WrittenFormStandsForTheWord := by
  intro x y hxlo hxhi hylo hyhi px py
  obtain ⟨a, hx, ha⟩ := exists_literal hxlo hxhi
  obtain ⟨b, hy, hb⟩ := exists_literal hylo hyhi
  have hword (i : Instr) (hia : i.toCommand.a = a) (hib : i.toCommand.b = b) :
      ∃ j, assemble i.mnemonic x y = some j ∧ (encode j).toNat = i.tableOp * 2 ^ 64 + px * 2 ^ 32 + py :=
    ⟨i, assemble_of_literals i (hia ▸ hx) (hib ▸ hy), by rw [toNat_encode, hia, hib, ha, hb]⟩
  exact ⟨hword (.add a b) rfl rfl, hword (.div a b) rfl rfl, hword (.sub a b) rfl rfl⟩

end Sys2Proof

namespace Sys2Proof.Machine

variable {w : Nat}

/-! The refusal of the reserved operation (R31, R51) -/

theorem State.accepting_iff {s : State w} :
    s.accepting = true ↔ s.ports.rst = false ∧ s.free = true ∧ s.ports.start = true := by
  simp [State.accepting, and_assoc]

/-- A step that does not accept the reserved `op` has a successor (R31). -/
theorem exists_step_next {s : State w} (h : ¬(s.accepting = true ∧ s.ports.op = 0b11#2)) : ∃ t, stepAt s = .next t := by
  cases hr : s.ports.rst with
  | true => exact ⟨_, step_reset hr⟩
  | false =>
    cases hf : s.free with
    | false => exact ⟨_, step_busy (by simp [State.busy_eq_not_free, hf]) hr⟩
    | true =>
      cases hs : s.ports.start with
      | false => exact ⟨_, step_hold hf hr hs⟩
      | true =>
        rcases op_reserved_or_requests hr hs with ho | ⟨i, hq⟩
        · exact absurd ⟨State.accepting_iff.2 ⟨hr, hf, hs⟩, ho⟩ h
        · obtain ⟨u, hu, -⟩ := exec_next i s
          exact ⟨hostMove u, by rw [step_request hf hq, hu]; rfl⟩

/-- Settles O7: `step_refused` is the one refusal, `exists_step_next` every other step. -/
theorem onlyTheReservedOpIsRefused : Obligations.OnlyTheReservedOpIsRefused := by
  intro s
  rw [step_eq_stepAt]
  refine ⟨fun hacc ho => ?_, exists_step_next⟩
  obtain ⟨hr, hf, hs⟩ := State.accepting_iff.1 hacc
  exact step_refused hf hr hs ho

end Sys2Proof.Machine
end

section
/-! The adder's unit and `ADD` (R56 to R65). The first part speaks of the pair `(XA, XB)` alone: its iteration count is
symmetric and is bounded by the trailing zeros of the carry mask. The second part puts the unit on the machine, by the
stretches of busy steps that `ADD` is made of. -/

namespace Sys2Proof.Machine

/-! The load and the iteration (R57, R58, R61) -/

theorem adderLoad_of_zero_right (x : Word) : adderLoad x 0 = (x, 0) := if_pos rfl

theorem adderLoad_of_zero_left {y : Word} (hy : y ≠ 0) : adderLoad 0 y = (y, 0) := by
  rw [adderLoad, if_neg hy, if_pos rfl]

theorem adderLoad_of_ne {x y : Word} (hx : x ≠ 0) (hy : y ≠ 0) : adderLoad x y = (x, y) := by
  rw [adderLoad, if_neg hy, if_neg hx]

theorem adderIter_zero_left (y : Word) : adderIter 0 y = (y, 0) := by simp [adderIter]

theorem adderIter_comm (x y : Word) : adderIter x y = adderIter y x := by
  rw [adderIter, adderIter, BitVec.xor_comm, BitVec.and_comm]

/-- Settles O20: the cases of `AdderLoad`, of which each keeps the sum. -/
theorem adderLoadKeepsTheSum : Obligations.AdderLoadKeepsTheSum := by
  intro x y
  refine ⟨?_, ?_, fun hy hx => adderLoad_of_ne hx hy, adderLoad_sum x y, adderIter_zero_left y⟩
  · rintro rfl
    exact adderLoad_of_zero_right x
  · rintro hy rfl
    exact adderLoad_of_zero_left hy

/-! Trailing zeros (R9, R62) -/

/-- The bits below `tz v` are 0 (R9). -/
theorem lowZero_tz (v : Word) : LowZero (tz v) v := by
  intro i hi
  unfold tz at hi
  cases hf : (List.range 32).find? fun i => v.getLsbD i with
  | none =>
    rw [hf] at hi
    simpa using List.find?_range_eq_none.1 hf i hi
  | some k =>
    rw [hf] at hi
    obtain ⟨-, -, hlow⟩ := List.find?_range_eq_some.1 hf
    simpa using hlow i hi

/-- `tz v` is the greatest number of low zeros of `v`, up to its width (R9). -/
theorem LowZero.le_tz {k : Nat} {v : Word} (h : LowZero k v) (hk : k ≤ 32) : k ≤ tz v := by
  unfold tz
  cases hf : (List.range 32).find? fun i => v.getLsbD i with
  | none => exact hk
  | some j =>
    obtain ⟨hbit, -, -⟩ := List.find?_range_eq_some.1 hf
    by_contra hlt
    simp [h j (by simpa using hlt)] at hbit

theorem tz_lt_of_ne_zero {v : Word} (h : v ≠ 0) : tz v < 32 := by
  by_contra hge
  exact h ((lowZero_tz v).eq_zero (by omega))

/-- An iteration adds a trailing zero to the carry mask (R62). -/
theorem tz_adderIter {x y : Word} (hy : y ≠ 0) : tz y + 1 ≤ tz (adderIter x y).2 :=
  (lowZero_tz y).adderIter.le_tz (tz_lt_of_ne_zero hy)

/-! The iteration count (R62, R63, R65) -/

@[simp] theorem adderItersUpTo_zero_right (f : Nat) (x : Word) : adderItersUpTo f x 0#32 = 0 := by
  cases f <;> simp [adderItersUpTo]

theorem adderItersUpTo_of_ne (f : Nat) (x : Word) {y : Word} (hy : y ≠ 0) :
    adderItersUpTo (f + 1) x y = adderItersUpTo f (adderIter x y).1 (adderIter x y).2 + 1 := by
  rw [adderItersUpTo, if_neg hy, Nat.add_comm]

/-- Settles O25: the bound from the low zeros of the carry mask, of which every iteration makes one more. -/
theorem adderLoopEnds : Obligations.AdderLoopEnds := by
  refine ⟨fun x y hy => .inr (tz_adderIter hy), fun x y hy => ⟨?_, ?_⟩, adderItersUpTo_zero_right 33, by decide, by decide⟩
  · rw [adderItersUpTo_of_ne 32 x hy]
    omega
  · exact adderItersUpTo_le 33 x y (lowZero_tz y)

theorem adderIters_of_zero {x y : Word} (h : x = 0 ∨ y = 0) : adderIters x y = 0 := by
  rcases adderLoad_cases x y with ⟨hl, -⟩ | ⟨-, hx, hy⟩
  · simp [adderIters, hl]
  · exact absurd h (not_or.2 ⟨hx, hy⟩)

/-- Both operands enter the loop, so it runs once and then on the pair of the first iteration (R57, R58). -/
theorem adderIters_of_ne {x y : Word} (hx : x ≠ 0) (hy : y ≠ 0) :
    adderIters x y = adderItersUpTo 32 (adderIter x y).1 (adderIter x y).2 + 1 := by
  rw [adderIters, adderLoad_of_ne hx hy]
  exact adderItersUpTo_of_ne 32 x hy

/-- One iteration is enough for a pair that leaves no carry mask, by no carry at all or by the one that is lost (R58). -/
theorem adderIters_of_no_carry {x y : Word} (hx : x ≠ 0) (hy : y ≠ 0) (h : (adderIter x y).2 = 0) :
    adderIters x y = 1 := by
  rw [adderIters_of_ne hx hy, h]
  simp

theorem adderIters_eq_zero_iff {x y : Word} : adderIters x y = 0 ↔ x = 0 ∨ y = 0 := by
  refine ⟨fun h => ?_, adderIters_of_zero⟩
  by_contra hn
  obtain ⟨hx, hy⟩ := not_or.1 hn
  rw [adderIters_of_ne hx hy] at h
  omega

/-- The count is symmetric, since the first iteration is (R65). -/
theorem adderIters_comm (x y : Word) : adderIters x y = adderIters y x := by
  by_cases h : x = 0 ∨ y = 0
  · rw [adderIters_of_zero h, adderIters_of_zero h.symm]
  · obtain ⟨hx, hy⟩ := not_or.1 h
    rw [adderIters_of_ne hx hy, adderIters_of_ne hy hx, adderIter_comm]

theorem adderIters_le_tz (x y : Word) : adderIters x y ≤ 32 - tz y := by
  rcases adderLoad_cases x y with ⟨hl, -⟩ | ⟨hl, -, -⟩
  · simp [adderIters, hl]
  · rw [adderIters, hl]
    exact adderItersUpTo_le 33 x y (lowZero_tz y)

/-! The sum (R56) -/

/-- Level F of `ADD` is the machine's addition of words (R56). -/
theorem fAdd_eq (a b : Word) : fAdd a b = .ok (a + b) := by simp [fAdd, BitVec.ofInt_add]

theorem fAdd_zero_right (a : Word) : fAdd a 0 = .ok a := by simp [fAdd_eq]

theorem fAdd_zero_left (b : Word) : fAdd 0 b = .ok b := by simp [fAdd_eq]

/-- A value less than `2^32` away from 0, reduced to 32 signed bits: one wrap at most (R56). -/
theorem bmod_eq_wrap_once {z : Int} (hlo : -(2 ^ 32) ≤ z) (hhi : z < 2 ^ 32) :
    z.bmod (2 ^ 32) = if z > 2 ^ 31 - 1 then z - 2 ^ 32 else if z < -(2 ^ 31) then z + 2 ^ 32 else z := by
  rw [Int.bmod_def]
  split_ifs <;> omega

/-- The signed reading of the sum (R56). -/
theorem toInt_add_wrap (a b : Word) :
    (a + b).toInt =
      if a.toInt + b.toInt > 2 ^ 31 - 1 then a.toInt + b.toInt - 2 ^ 32
      else if a.toInt + b.toInt < -(2 ^ 31) then a.toInt + b.toInt + 2 ^ 32
      else a.toInt + b.toInt := by
  have ha := BitVec.le_toInt a
  have hb := BitVec.le_toInt b
  have ha' := BitVec.toInt_lt (x := a)
  have hb' := BitVec.toInt_lt (x := b)
  rw [BitVec.toInt_add]
  exact bmod_eq_wrap_once (by omega) (by omega)

/-- Settles O28: the laws of the addition of words by `fAdd_eq`, those of the count by its symmetry. -/
theorem addLaws : Obligations.AddLaws := by
  refine ⟨fun a b => ⟨fAdd_zero_right a, fAdd_zero_left b, ?_, ?_⟩, fun a b => ?_, fun a b c d e hd he => ?_,
    fun a b => ?_⟩
  · rw [fAdd_eq, fAdd_eq, BitVec.add_comm]
  · rw [addSteps, addSteps, adderIters_comm]
  · rw [fAdd_eq, BitVec.ofNat_add, BitVec.ofNat_toNat, BitVec.ofNat_toNat, BitVec.setWidth_eq, BitVec.setWidth_eq]
  · rw [fAdd_eq, CmdOutcome.ok.injEq] at hd he
    rw [fAdd_eq, fAdd_eq, ← hd, ← he, BitVec.add_assoc]
  · have hb := adderIters_le_tz a b
    have ha := adderIters_comm a b ▸ adderIters_le_tz b a
    omega

/-- Settles O29: the rows with a variable by the laws of the sum and of the count, the others by evaluation. -/
theorem addCornerCases : Obligations.AddCornerCases := by
  refine ⟨fun x => ⟨fAdd_zero_right x, adderIters_of_zero (.inr rfl)⟩,
    fun y => ⟨fAdd_zero_left y, adderIters_of_zero (.inl rfl)⟩,
    fun x => ⟨?_, fun hx hnx => adderIters_of_no_carry hx hnx ?_⟩, by decide⟩
  · rw [fAdd_eq, BitVec.add_not_self]
    rfl
  · simp

/-! The adder's steps on the machine (R58, R60, R85, R86) -/

variable {w : Nat}

theorem adding_iff {p : Phase} : p.adding = true ↔ p = .addRun ∨ p = .subNeg ∨ p = .subRun := by
  cases p <;> simp [Phase.adding]

/-- A step with `XB == 0` ends the adder's pass: the command is done, or `SUB` hands over to its second pass. -/
theorem workStep_phase_of_xb_zero {s : State w} (ha : s.phase.adding = true) (hx : s.xb = 0) :
    (workStep s).phase ≠ s.phase := by
  rcases adding_iff.1 ha with hp | hp | hp
  · simp [workStep_finish_of_xb_zero (.inl hp) hx, hp]
  · simp [workStep_handOver hp hx, hp]
  · simp [workStep_finish_of_xb_zero (.inr hp) hx, hp]

/-- Settles O21: `step_iterate`, read bit by bit. -/
theorem adderIterationBitByBit : Obligations.AdderIterationBitByBit := by
  unfold Obligations.AdderIterationBitByBit
  rw [step_eq_stepAt]
  refine ⟨fun s hp hr hx => ?_, fun s hp hr hx => ?_⟩
  · refine ⟨_, step_iterate (adding_iff.2 hp) hr hx, ?_, ?_, ?_, ?_⟩
    · rw [hostMove_regs, setAdder_regs]
      simp [State.regs]
    · simp
    · simp
    · intro i hi
      rw [hostMove_xb, setAdder_xb, adderIter_carry_bit, decide_eq_true (by omega), Bool.true_and]
  · refine ⟨_, step_busy (busy_of_adding (adding_iff.2 hp)) hr, ?_⟩
    rw [hostMove_phase]
    exact workStep_phase_of_xb_zero (adding_iff.2 hp) hx

/-- Settles O23: the last pass's finish, or `step_iterate`. -/
theorem runStepFinishesOrIterates : Obligations.RunStepFinishesOrIterates := by
  intro s hp hr
  rw [step_eq_stepAt]
  have ha : s.phase.adding = true := adding_iff.2 (hp.imp_right .inr)
  by_cases hx : s.xb = 0
  · refine ⟨_, step_busy (busy_of_adding ha) hr, fun _ => ?_, absurd hx⟩
    rw [hostMove_regs, workStep_finish_of_xb_zero hp hx]
    rfl
  · refine ⟨_, step_iterate ha hr hx, fun h => absurd h hx, fun _ => ?_⟩
    rw [hostMove_regs]
    rfl

/-- Settles O24: every iteration keeps the sum, so the loop ends with it in `XA`, and the finish writes it to `RES`. -/
theorem adderLoopLeavesTheSum : Obligations.AdderLoopLeavesTheSum := by
  refine ⟨fun x y => ?_, adderIter_sum, adderLoad_sum, fun s hp hr => ?_⟩
  · rw [BitVec.toNat_xor, BitVec.toNat_and]
    exact nat_add_eq_xor_add_and _ _ _ le_rfl
  · obtain ⟨t, ht, htr⟩ := BusyRun.adderLoop (adding_iff.2 (.inl hp)) hr
    obtain ⟨u, hu, hur⟩ := BusyRun.lastPass (.inl hp) hr
    rw [run_eq_runAt]
    exact ⟨t, u, ht.run, (congrArg BlockRegs.phase htr).trans hp, congrArg BlockRegs.xb htr, congrArg BlockRegs.xa htr,
      hu.run, congrArg BlockRegs.phase hur, congrArg BlockRegs.res hur⟩

/-! The command `ADD` (R56, R59, R63) -/

/-- Settles O22: what the accepting step of `ADD` writes is its own list of registers. -/
theorem addAcceptLoadsTheAdder : Obligations.AddAcceptLoadsTheAdder := fun _ _ _ _ => ⟨_, _, rfl, rfl, rfl, rfl⟩

/-- Settles O26: the count's bounds are those of the iterations, and the machine's count is the one every command has. -/
theorem addStepCount : Obligations.AddStepCount := by
  intro a b
  have hle := adderIters_le_tz a b
  have hzero : addSteps a b = 2 ↔ a = 0 ∨ b = 0 := by simp [addSteps, adderIters_eq_zero_iff]
  refine ⟨Nat.le_add_left 2 _, by rw [addSteps]; omega, hzero, fun s hf hq hr => ?_⟩
  rw [run_eq_runAt]
  obtain ⟨hbusy, t, ht, -, hp, -⟩ := requested_command_completes (by decide) hf hq hr
  refine ⟨fun k h1 hk => ?_, t, ht, (State.isDone_iff t).2 hp⟩
  obtain ⟨u, hu, hb, -⟩ := hbusy k h1 hk
  exact ⟨u, hu, State.isDone_of_busy hb⟩

/-- Settles O27: `add_completes` from the state that the accepting step leaves, with the signed reading of the sum. -/
theorem addCommandCompletes : Obligations.AddCommandCompletes := by
  intro a b s _ hr
  obtain ⟨u, hu, hregs⟩ := add_completes a b (s := s) rfl hr
  have hxa : u.xa = a + b := congrArg BlockRegs.xa hregs
  have hxb : u.xb = 0 := congrArg BlockRegs.xb hregs
  have hp : u.phase = .done := congrArg BlockRegs.phase hregs
  have he : u.err = false := congrArg BlockRegs.err hregs
  have hres : u.res = a + b := congrArg BlockRegs.res hregs
  rw [run_eq_runAt]
  refine ⟨rfl, addAccept a b (dropOutcome s), u, rfl, hu.run, ?_, ?_, toInt_add_wrap a b⟩
  · rw [hregs, hxa, hxb]
  · simp [State.outcome_of_done u hp, he, hres]

end Sys2Proof.Machine
end

section
/-! The divider's unit and `DIV` (R66 to R82). The values first: level F is the library's `BitVec.sdiv` wherever the
divisor is not 0, which gives the laws and the corner cases. Then the datapath at every width, its ranges, one step of
each divider phase on the machine, and the command as a whole. -/

namespace Sys2Proof.Machine

variable {w : Nat}

/-! Truncating division of words (R66, R74, R79, R82) -/

/-- The quotient of level F is the library's signed division of words, whose overflow wraps as well (R66, R74). -/
theorem ofInt_tdiv_eq_sdiv (a b : Word) : BitVec.ofInt 32 (a.toInt.tdiv b.toInt) = a.sdiv b := by
  apply BitVec.eq_of_toInt_eq
  rw [BitVec.toInt_ofInt, BitVec.toInt_sdiv]

theorem fDiv_zero (a : Word) : fDiv a 0 = .divisionByZero := if_pos rfl

theorem fDiv_eq (a : Word) {b : Word} (hb : b ≠ 0) : fDiv a b = .ok (a.sdiv b) := by
  rw [fDiv, if_neg hb, ofInt_tdiv_eq_sdiv]

theorem fDiv_one (a : Word) : fDiv a 1 = .ok a := by
  rw [fDiv_eq a (by decide)]
  exact congrArg CmdOutcome.ok BitVec.sdiv_one

theorem fDiv_zero_left {b : Word} (hb : b ≠ 0) : fDiv 0 b = .ok 0 := by
  rw [fDiv_eq 0 hb]
  exact congrArg CmdOutcome.ok BitVec.zero_sdiv

theorem fDiv_self {x : Word} (hx : x ≠ 0) : fDiv x x = .ok 1 := by
  rw [fDiv_eq x hx, BitVec.sdiv_self, if_neg (by simpa using hx)]
  rfl

theorem minInt32_eq_intMin : minInt32 = BitVec.intMin 32 := by decide

theorem minusOne_eq_neg_one : 0xFFFFFFFF#32 = -1#32 := by decide

theorem fDiv_minInt32 {x : Word} (hx : x ≠ minInt32) : fDiv x minInt32 = .ok 0 := by
  rw [minInt32_eq_intMin] at hx ⊢
  rw [fDiv_eq x (by decide), BitVec.sdiv_intMin, if_neg hx]
  rfl

/-- A negated divisor negates the quotient (R82). -/
theorem fDiv_neg_right (a : Word) {b : Word} (hb : b ≠ 0) (hmin : b ≠ minInt32) : fDiv a (-b) = .ok (-a.sdiv b) := by
  rw [minInt32_eq_intMin] at hmin
  rw [fDiv_eq a (by simpa using hb), BitVec.sdiv_neg hmin]

theorem fDiv_minusOne (x : Word) : fDiv x 0xFFFFFFFF#32 = .ok (-x) := by
  rw [minusOne_eq_neg_one, fDiv_neg_right x (by decide) (by decide), BitVec.sdiv_one]

/-- A negated dividend negates the quotient (R82). -/
theorem fDiv_neg_left {a b : Word} (hmin : a ≠ minInt32) (hb : b ≠ 0) : fDiv (-a) b = .ok (-a.sdiv b) := by
  rw [minInt32_eq_intMin] at hmin
  rw [fDiv_eq (-a) hb, BitVec.neg_sdiv hmin]

/-- With both operands negated the quotient is the same (R82). -/
theorem fDiv_neg_neg {a b : Word} (hmin : a ≠ minInt32) (hb : b ≠ 0) : fDiv (-a) (-b) = .ok (a.sdiv b) := by
  rw [minInt32_eq_intMin] at hmin
  rw [fDiv_eq (-a) (by simpa using hb), BitVec.neg_sdiv_neg hmin]

/-- The quotient fits its word in every case but one (R74, R79). -/
theorem toInt_sdiv_eq_tdiv {a b : Word} (h : ¬(a = minInt32 ∧ b = 0xFFFFFFFF#32)) :
    (a.sdiv b).toInt = a.toInt.tdiv b.toInt := by
  rw [minInt32_eq_intMin, minusOne_eq_neg_one] at h
  exact BitVec.toInt_sdiv_of_ne_or_ne a b (not_and_or.1 h)

/-- The signed reading of the quotient of level F (R66). -/
theorem toInt_ofInt_tdiv (a b : Word) :
    (BitVec.ofInt 32 (a.toInt.tdiv b.toInt)).toInt =
      if a = minInt32 ∧ b = 0xFFFFFFFF#32 then -(2 ^ 31) else a.toInt.tdiv b.toInt := by
  rw [ofInt_tdiv_eq_sdiv]
  split
  next h =>
    rw [h.1, h.2]
    decide
  next h => exact toInt_sdiv_eq_tdiv h

/-- The remainder of truncating division is 0 or has the dividend's sign (R79). -/
theorem tmod_zero_or_sign (x y : Int) : x.tmod y = 0 ∨ (0 < x.tmod y ∧ 0 < x) ∨ (x.tmod y < 0 ∧ x < 0) := by
  have hs := Int.sign_tmod x y
  split at hs
  · exact .inl (Int.sign_eq_zero_iff_zero.1 hs)
  · rcases lt_trichotomy x 0 with hx | rfl | hx
    · rw [Int.sign_eq_neg_one_of_neg hx] at hs
      exact .inr (.inr ⟨Int.sign_eq_neg_one_iff_neg.1 hs, hx⟩)
    · exact .inl (Int.zero_tmod y)
    · rw [Int.sign_eq_one_of_pos hx] at hs
      exact .inr (.inl ⟨Int.sign_eq_one_iff_pos.1 hs, hx⟩)

/-- Settles O41: the sign and the magnitude by `ofInt_tdiv_eq`; the implied remainder is the library's `tmod`. -/
theorem divTruncatesTowardZero : Obligations.DivTruncatesTowardZero := by
  intro a b hb
  refine ⟨⟨_, if_neg hb, ?_⟩, fun hne v hv => ?_⟩
  · rw [ofInt_tdiv_eq, quotientSign]
    by_cases hsign : a.getLsbD 31 = b.getLsbD 31
    · rw [if_pos hsign, hsign, Bool.xor_self, if_neg Bool.false_ne_true]
    · rw [if_neg hsign, if_pos (bne_iff_ne.2 hsign)]
  · rw [fDiv_eq a hb, CmdOutcome.ok.injEq] at hv
    have hr : a.toInt - v.toInt * b.toInt = a.toInt.tmod b.toInt := by
      rw [← hv, toInt_sdiv_eq_tdiv hne, Int.tmod_def, mul_comm]
    simp only [hr]
    refine ⟨?_, tmod_zero_or_sign _ _⟩
    rw [Int.natAbs_tmod]
    exact Nat.mod_lt _ (natAbs_toInt_pos hb)

/-- Settles O42: the laws of the library's signed division, through `fDiv_eq`. -/
theorem divLaws : Obligations.DivLaws := by
  refine ⟨fun a => ⟨fDiv_one a, fDiv_zero a⟩, fun b hb => fDiv_zero_left hb, fun a b v ha hb hbm hv => ?_⟩
  rw [fDiv_eq a hb, CmdOutcome.ok.injEq] at hv
  subst hv
  exact ⟨fDiv_neg_left ha hb, fDiv_neg_right a hb hbm, fDiv_neg_neg ha hb⟩

/-- Settles O43: the rows with a variable by the laws of the division, the others by evaluation. -/
theorem divCornerCases : Obligations.DivCornerCases := by
  refine ⟨fDiv_zero, fun b hb => fDiv_zero_left hb, fDiv_one, fDiv_minusOne, by decide, fDiv_self (by decide),
    fun x hx => fDiv_minInt32 hx, by decide, fDiv_minInt32 (by decide), by decide, fDiv_self (by decide),
    fun x hx => fDiv_self hx, fun x hx hmin => ?_⟩
  rw [fDiv_neg_right x hx hmin, BitVec.sdiv_self, if_neg (by simpa using hx)]
  decide

/-! Absolute values and narrowing (R70, R74) -/

theorem getLsbD_low32 (q : BitVec w) (i : Nat) : (low32 q).getLsbD i = (decide (i < 32) && q.getLsbD i) := by
  simp [low32]

/-- Narrowing keeps a value that fits, at every width from 32 up (R74). -/
theorem toInt_low32 (hw : 32 ≤ w) {q : BitVec w} (hlo : -(2 ^ 31) ≤ q.toInt) (hhi : q.toInt < 2 ^ 31) :
    (low32 q).toInt = q.toInt := by
  have hmod : (q.toNat : Int).bmod (2 ^ 32) = q.toInt.bmod (2 ^ 32) := by
    rw [BitVec.toInt_eq_toNat_bmod, Int.bmod_bmod_of_dvd (Nat.pow_dvd_pow 2 hw)]
  rw [low32, ← BitVec.setWidth_eq_extractLsb' hw, BitVec.toInt_setWidth, hmod]
  exact Int.bmod_eq_of_le (by omega) (by omega)

/-- Settles O35: narrowing by `toInt_low32`, the quotient by `toInt_sdiv_eq_tdiv`. -/
theorem narrowingWrapsOnlyMinByMinusOne : Obligations.NarrowingWrapsOnlyMinByMinusOne :=
  ⟨getLsbD_low32, fun _ hlo hhi => toInt_low32 (by decide) hlo hhi, fDiv_minusOne minInt32,
    fun a _ hb hne => ⟨_, fDiv_eq a hb, toInt_sdiv_eq_tdiv hne⟩⟩

/-! The loop of the datapath at every width (R76) -/

theorem divLoop_divFin (n : Nat) (d : DivRegs w) : divLoop n (.divFin, d) = (.divFin, d) := by
  induction n with
  | zero => rfl
  | succ n ih => exact ih

theorem divLoop_add (m n : Nat) (x : Phase × DivRegs w) : divLoop (m + n) x = divLoop n (divLoop m x) := by
  induction m generalizing x with
  | zero => rw [Nat.zero_add]; rfl
  | succ m ih => rw [Nat.succ_add]; exact ih (divLoopStep x)

/-- A loop that has reached `DIV_FIN` stays there, so any greater number of steps leaves the same registers. -/
theorem Loops.divLoop_of_le {m n : Nat} {x : Phase × DivRegs w} {e : DivRegs w} (h : Loops m x (.divFin, e))
    (hmn : m ≤ n) : divLoop n x = (.divFin, e) := by
  rw [← Nat.add_sub_cancel' hmn, divLoop_add, h.divLoop_eq, divLoop_divFin]

theorem magQuotient_le (a b : Word) : magQuotient a b ≤ 2 ^ 31 :=
  (Nat.div_le_self _ _).trans (natAbs_toInt_le a)

/-- The datapath of every width from 34 up forms the quotient of level F, whatever its registers held (R66, R76). -/
theorem divideAt_eq (hw : 34 ≤ w) (d : DivRegs w) (a : Word) {b : Word} (hb : b ≠ 0) :
    divideAt w d a b = BitVec.ofInt 32 (a.toInt.tdiv b.toInt) := by
  obtain ⟨e, hl, hneg, he⟩ := outer_loop hw (magQuotient a b) (load_outer hw d a b hb) rfl
  have hsteps := roundSteps_bound (magQuotient_le a b)
  have hquo : e.quo.toNat = magQuotient a b := by rw [he.quo_eq, Nat.zero_add]; rfl
  have hsign : e.neg = quotientSign a b := hneg
  rw [divideAt, hl.divLoop_of_le (by omega), low32_signedQuotient (by omega), hquo, hsign, ofInt_tdiv_eq]

/-- Settles O38: both sides are the quotient of level F, by `divideAt_eq`. -/
theorem quotientDoesNotDependOnTheWideWidth : Obligations.QuotientDoesNotDependOnTheWideWidth := by
  intro w d a b hw hb
  rw [divideAt_eq hw d a hb]
  exact if_neg hb

/-! The invariants and the ranges (R75, R76) -/

theorem OuterTie.outerNat {A B : Nat} {d : DivRegs w} (h : OuterTie A B d) (hpos : 1 ≤ B) (hB : B ≤ 2 ^ 31)
    (hA : A ≤ 2 ^ 31) : OuterNat d B d.quo.toNat d.rem.toNat := by
  obtain ⟨hdvs, hsum⟩ := h
  exact ⟨hdvs, rfl, rfl, hpos, hsum ▸ hA, hB⟩

theorem OuterNat.outerTie {A B quo rem : Nat} {d : DivRegs w} (h : OuterNat d B quo rem) (hA : A = quo * B + rem) :
    OuterTie A B d := by
  refine ⟨h.dvs_eq, ?_⟩
  rw [h.quo_eq, h.rem_eq, hA]

theorem ShiftTie.shiftNat {A B : Nat} {d : DivRegs w} (h : ShiftTie A B d) (hpos : 1 ≤ B) (hB : B ≤ 2 ^ 31)
    (hA : A ≤ 2 ^ 31) : ∃ k, ShiftNat d B d.quo.toNat d.rem.toNat k := by
  obtain ⟨ho, k, hmul, htmp, hle⟩ := h
  exact ⟨k, { ho.outerNat hpos hB hA with tmp_eq := htmp, mul_eq := hmul, le := htmp ▸ hle }⟩

theorem ShiftNat.shiftTie {A B quo rem k : Nat} {d : DivRegs w} (h : ShiftNat d B quo rem k)
    (hA : A = quo * B + rem) : ShiftTie A B d := by
  refine ⟨h.toOuterNat.outerTie hA, k, h.mul_eq, h.tmp_eq, ?_⟩
  rw [h.tmp_eq, h.rem_eq]
  exact h.le

/-- A step in `DIV_OUTER` with I1 starts a round with I2, or ends the loop with quotient and remainder (R75). -/
theorem OuterTie.step (hw : 34 ≤ w) {A B : Nat} {d : DivRegs w} (h : OuterTie A B d) (hpos : 1 ≤ B) (hB : B ≤ 2 ^ 31)
    (hA : A ≤ 2 ^ 31) :
    (∃ e, divLoopStep (.divOuter, d) = (.divShift, e) ∧ ShiftTie A B e) ∨
      (divLoopStep (.divOuter, d) = (.divFin, d) ∧ d.quo.toNat = A / B ∧ d.rem.toNat = A % B) := by
  have ho := h.outerNat hpos hB hA
  rcases outer_step hw ho with ⟨-, hstep, hs⟩ | ⟨hlt, hstep⟩
  · exact .inl ⟨_, hstep, hs.shiftTie h.2⟩
  · have hsum : d.rem.toNat + B * d.quo.toNat = A := by rw [h.2, mul_comm, add_comm]
    obtain ⟨hdiv, hmod⟩ := (Nat.div_mod_unique hpos).2 ⟨hsum, hlt⟩
    exact .inr ⟨hstep, hdiv.symm, hmod.symm⟩

/-- A step in `DIV_SHIFT` with I2 goes on with I2, or subtracts and is back at I1 (R75). -/
theorem ShiftTie.step (hw : 34 ≤ w) {A B : Nat} {d : DivRegs w} (h : ShiftTie A B d) (hpos : 1 ≤ B) (hB : B ≤ 2 ^ 31)
    (hA : A ≤ 2 ^ 31) :
    (∃ e, divLoopStep (.divShift, d) = (.divShift, e) ∧ ShiftTie A B e) ∨
      ∃ e, divLoopStep (.divShift, d) = (.divOuter, e) ∧ OuterTie A B e := by
  obtain ⟨k, hk⟩ := h.shiftNat hpos hB hA
  rcases shift_step hw hk with ⟨-, hstep, hs⟩ | ⟨-, hstep, ho⟩
  · exact .inl ⟨_, hstep, hs.shiftTie h.1.2⟩
  · refine .inr ⟨_, hstep, ho.outerTie ?_⟩
    have hle := hk.le
    rw [h.1.2, Nat.add_mul, mul_comm (2 ^ k) B]
    omega

/-- The signed quotient as an integer (R73, R76). -/
theorem toInt_signedQuotient (hw : 34 ≤ w) {d : DivRegs w} (hq : d.quo.toNat ≤ 2 ^ 31) :
    d.signedQuotient.toInt = if d.neg then -(d.quo.toNat : Int) else d.quo.toNat := by
  have hquo := toInt_eq_toNat_of_le hw (hq.trans (by decide))
  have hmsb : d.quo.msb = false := by rw [BitVec.msb_eq_toInt, hquo]; simp
  rw [DivRegs.signedQuotient]
  split
  · rw [BitVec.toInt_neg_eq_of_msb hmsb, hquo]
  · exact hquo

/-- The contribution still to come is no bit of `QUO` yet (R75). -/
theorem Decreasing.quo_and_mul {j k : Nat} {d : DivRegs w} (h : Decreasing j d) (hk : k < j)
    (hmul : d.mul.toNat = 2 ^ k) : d.quo &&& d.mul = 0#w := by
  have hpow : d.mul = BitVec.twoPow w k := by
    apply BitVec.eq_of_toNat_eq
    rw [BitVec.toNat_twoPow, ← hmul, Nat.mod_eq_of_lt d.mul.isLt]
  obtain ⟨c, hc⟩ := h.1
  have hbit : d.quo.getLsbD k = false := by
    rw [← BitVec.testBit_toNat, hc, Nat.testBit_two_pow_mul, decide_eq_false (by omega), Bool.false_and]
  rw [hpow, BitVec.and_twoPow, hbit, if_neg Bool.false_ne_true]

/-- What the invariant says in the divider's three phases (R75). -/
theorem BlockInv.divBounded {s : State w} (h : BlockInv s)
    (hp : s.phase = .divOuter ∨ s.phase = .divShift ∨ s.phase = .divFin) : DivBounded s.div := by
  obtain ⟨-, h⟩ := h
  rcases hp with hp | hp | hp <;> simp only [hp] at h <;> exact h.1

/-- What the invariant says in `DIV_SHIFT` of the multiple `DVS * 2^k` (R75). -/
theorem BlockInv.shiftNat {s : State w} (h : BlockInv s) (hp : s.phase = .divShift) :
    ∃ j k, k < j ∧ Decreasing j s.div ∧ ShiftNat s.div s.div.dvs.toNat s.div.quo.toNat s.div.rem.toNat k := by
  simp only [BlockInv, hp] at h
  obtain ⟨-, hbd, j, k, hkj, hj, hmul, htmp, hle⟩ := h
  exact ⟨j, k, hkj, hj, { hbd.outerNat with tmp_eq := htmp, mul_eq := hmul, le := htmp ▸ hle }⟩

/-- Settles O37: the ranges of `OuterNat` and `ShiftNat`, which the invariant gives. -/
theorem dividerRanges : Obligations.DividerRanges := by
  intro s hinv
  refine ⟨fun hp => ?_, fun hp => ?_⟩
  · have ho := (hinv.divBounded hp).outerNat
    have hq := ho.quo_le
    have hbound := ho.bound
    have hsigned := toInt_signedQuotient (by decide) hq
    refine ⟨ho.pos, ho.boundB, by omega, hq, ?_⟩
    split at hsigned <;> omega
  · obtain ⟨j, k, hkj, hj, hs⟩ := hinv.shiftNat hp
    have hbound := hs.bound
    have hle := hs.le
    have htmp := hs.tmp_eq
    have hmul := hs.mul_eq
    have hpow : 1 ≤ 2 ^ k := Nat.one_le_two_pow
    have hmulle : 2 ^ k ≤ s.div.dvs.toNat * 2 ^ k := Nat.le_mul_of_pos_left _ hs.pos
    have hshift : (s.div.tmp <<< 1).toNat = 2 * s.div.tmp.toNat := toNat_shift_one (by decide) (by omega)
    have hand := hj.quo_and_mul hkj hmul
    exact ⟨by omega, by omega, by omega, by omega, by omega, by omega, hand, BitVec.add_eq_or_of_and_eq_zero _ _ hand⟩

/-! One step of each divider phase on the machine (R68, R71 to R73) -/

theorem divLoopStep_startRound {d : DivRegs w} (h : d.dvs.toInt ≤ d.rem.toInt) :
    divLoopStep (.divOuter, d) = (.divShift, d.startRound) := if_pos (decide_eq_true h)

theorem divLoopStep_fin {d : DivRegs w} (h : d.rem.toInt < d.dvs.toInt) :
    divLoopStep (.divOuter, d) = (.divFin, d) := if_neg (by simpa [DivRegs.another, BitVec.sle] using h)

theorem divLoopStep_shift {d : DivRegs w} (h : (d.tmp <<< 1).toInt ≤ d.rem.toInt) :
    divLoopStep (.divShift, d) = (.divShift, d.shift) := if_pos (decide_eq_true h)

theorem divLoopStep_subtract {d : DivRegs w} (h : d.rem.toInt < (d.tmp <<< 1).toInt) :
    divLoopStep (.divShift, d) = (.divOuter, d.subtract) := if_neg (by simpa [DivRegs.shiftFits, BitVec.sle] using h)

/-- `step_loop` on the registers of R17: a step of the loop writes `PHASE` and the divider's registers (R71, R72). -/
theorem step_loop_regs {s : State w} (hp : s.phase = .divOuter ∨ s.phase = .divShift) (hr : s.ports.rst = false) :
    ∃ t, stepAt s = .next t ∧
      t.regs = { s.regs with
        phase := (divLoopStep (s.phase, s.div)).1, div := (divLoopStep (s.phase, s.div)).2 } :=
  ⟨_, step_loop hp hr, hostMove_regs _⟩

/-- Settles O32: the step of the loop in `DIV_OUTER`, in its two cases. -/
theorem divOuterStepTests : Obligations.DivOuterStepTests := by
  intro s hp hr
  obtain ⟨t, ht, hregs⟩ := step_loop_regs (.inl hp) hr
  rw [hp] at hregs
  rw [step_eq_stepAt]
  exact ⟨t, ht, fun h => by rw [hregs, divLoopStep_startRound h]; rfl, fun h => by rw [hregs, divLoopStep_fin h]; rfl⟩

/-- Settles O33: the step of the loop in `DIV_SHIFT`, in its two cases. -/
theorem divShiftStepShiftsOrSubtracts : Obligations.DivShiftStepShiftsOrSubtracts := by
  intro s hp hr
  obtain ⟨t, ht, hregs⟩ := step_loop_regs (.inr hp) hr
  rw [hp] at hregs
  rw [step_eq_stepAt]
  exact ⟨t, ht, fun h => by rw [hregs, divLoopStep_shift h, ← hp]; rfl,
    fun h => by rw [hregs, divLoopStep_subtract h]; rfl⟩

/-- Settles O34: negating and narrowing in either order, by `low32_signedQuotient`. -/
theorem divFinStepNegatesAndNarrows : Obligations.DivFinStepNegatesAndNarrows := by
  intro s hp hr
  rw [step_eq_stepAt]
  refine ⟨_, step_divFin hp hr, ?_⟩
  rw [hostMove_regs, divFinStep, finish_regs, low32_signedQuotient (by decide)]
  refine ⟨fun hneg => ?_, fun hneg => ?_⟩ <;> rw [hneg] <;> rfl

/-- Settles O30: the three tests of `DivAccept` and its loading, each with its own list of registers. -/
theorem divAcceptTestsThenLoads : Obligations.DivAcceptTestsThenLoads := by
  intro a b s _
  obtain ⟨t, ht, hports, hhost⟩ := exec_next (.div a b) s
  cases ht
  refine ⟨_, (dropOutcome s).res, rfl, hports, hhost, fun hb => ?_, fun hb ha => ?_, fun hb ha hb1 => ?_,
    fun hb ha hb1 => ?_⟩
  · rw [divAccept, if_pos hb]
    rfl
  · rw [divAccept, if_neg hb, if_pos ha]
    rfl
  · rw [divAccept, if_neg hb, if_neg ha, if_pos hb1]
    rfl
  · rw [divAccept_load (by tauto)]
    rfl

/-- The state after an accepting step of `DIV` with none of the early outcomes (R68). -/
theorem exec_div_load {a b : Word} {s t : State} (hb : b ≠ 0) (ha : a ≠ 0) (hb1 : b ≠ 1)
    (h : exec (.div a b) s = .next t) : t.phase = .divOuter ∧ t.div = s.div.load a b := by
  cases h
  rw [divAccept_load (by tauto)]
  exact ⟨rfl, rfl⟩

/-- Settles O31: the absolute value by `toNat_absWide`, its range by that of the operands' magnitudes. -/
theorem absoluteValueIsWidenedFirst : Obligations.AbsoluteValueIsWidenedFirst := by
  refine ⟨fun w v hw => ?_, fun a b s t hb ha hb1 ht => ?_⟩
  · rw [toNat_absWide hw, toNat_absWide hw]
    exact ⟨rfl, natAbs_toInt_le v, natAbs_toInt_pos, by decide⟩
  · obtain ⟨-, hdiv⟩ := exec_div_load hb ha hb1 ht
    have ho := load_outer (by decide) s.div a b hb
    rw [hdiv, ho.rem_eq, ho.dvs_eq]
    exact ⟨rfl, rfl, natAbs_toInt_pos ha, natAbs_toInt_le a, natAbs_toInt_pos hb, natAbs_toInt_le b⟩

/-- Settles O36: the loading establishes I1, and the step of the loop keeps I1 and I2. -/
theorem dividerLoopInvariants : Obligations.DividerLoopInvariants := by
  refine ⟨fun a b s t hb ha hb1 ht => ?_, fun A B s t hpos hB hA hr hs => ?_⟩
  · obtain ⟨hp, hdiv⟩ := exec_div_load hb ha hb1 ht
    rw [hdiv]
    exact ⟨hp, (load_outer (by decide) s.div a b hb).outerTie (by omega)⟩
  · rw [step_eq_stepAt] at hs
    refine ⟨fun hp h => ?_, fun hp h => ?_⟩
    · rw [step_loop (.inl hp) hr, hp] at hs
      cases hs
      rcases h.step (by decide) hpos hB hA with ⟨e, hstep, he⟩ | ⟨hstep, he⟩
      · exact .inl (by simpa [hstep] using he)
      · exact .inr (by simpa [hstep] using he)
    · rw [step_loop (.inr hp) hr, hp] at hs
      cases hs
      rcases h.step (by decide) hpos hB hA with ⟨e, hstep, he⟩ | ⟨e, hstep, he⟩
      · exact .inl (by simpa [hstep] using he)
      · exact .inr (by simpa [hstep] using he)

/-! The command `DIV` (R66, R78) -/

theorem divSteps_of_early {a b : Word} (h : b = 0 ∨ a = 0 ∨ b = 1) : divSteps a b = 1 := if_pos h

theorem divSteps_of_load {a b : Word} (h : ¬(b = 0 ∨ a = 0 ∨ b = 1)) :
    divSteps a b = 3 + roundSteps (magQuotient a b) 32 := if_neg h

theorem divSteps_le (a b : Word) : divSteps a b ≤ 530 := by
  have hrounds := roundSteps_bound (magQuotient_le a b)
  rw [divSteps]
  split <;> omega

/-- `requested_command_completes` as the host sees it on the port `done`: the first `DONE` is after the command's own count
of steps (R116). -/
theorem requested_command_isDone {i : Instr} {s : State} (hf : s.free = true) (hq : Requests i s) (hr : ResetLow s) :
    (∀ k, 1 ≤ k → k < stepCount i → ∃ t, run k s = .next t ∧ t.isDone = false) ∧
      ∃ t, run (stepCount i) s = .next t ∧ t.isDone = true := by
  rw [run_eq_runAt]
  obtain ⟨hbusy, t, ht, -, hp, -⟩ := requested_command_completes (by decide) hf hq hr
  refine ⟨fun k h1 hk => ?_, t, ht, (State.isDone_iff t).2 hp⟩
  obtain ⟨u, hu, hb, -⟩ := hbusy k h1 hk
  exact ⟨u, hu, State.isDone_of_busy hb⟩

/-- Settles O39: the count's bounds are those of the rounds, and the machine's count is the one every command has. -/
theorem divStepCount : Obligations.DivStepCount := by
  refine ⟨fun a b => ⟨divSteps_of_early, fun h hlt => ?_, fun h => ?_, divSteps_le a b⟩, by decide, by decide, by decide,
    by decide, fun _ _ _ => requested_command_isDone⟩
  · rw [divSteps_of_load h, magQuotient, Nat.div_eq_of_lt hlt, roundSteps_zero]
  · rw [divSteps_of_load h]
    omega

/-- Settles O40: `div_completes` from the state that the accepting step leaves; with the divisor 0 no step is left. -/
theorem divCommandCompletes : Obligations.DivCommandCompletes := by
  intro a b s _ hr
  obtain ⟨t, ht, hports, hhost⟩ := exec_next (.div a b) s
  have htr : ResetLow t := by rw [ResetLow, hports, hhost]; exact hr
  cases ht
  obtain ⟨u, hu, hregs, hres⟩ := div_completes (by decide) a b (s := s) rfl htr
  have hp : u.phase = .done := congrArg BlockRegs.phase hregs
  have he : u.err = decide (b = 0) := congrArg BlockRegs.err hregs
  rw [run_eq_runAt]
  refine ⟨rfl, fun _ => toInt_ofInt_tdiv a b, _, u, rfl, hu.run, hregs, fun hb => ⟨?_, ?_, ?_⟩, fun hb => ?_⟩
  · have hrun := hu.run
    rw [divSteps_of_early (.inl hb)] at hrun
    cases hrun
    rfl
  · rw [State.outcome_of_done u hp, he, decide_eq_true hb]
    rfl
  · simp [State.result?, State.resultSpecified, he, hb]
  · rw [State.outcome_of_done u hp, he, decide_eq_false hb, hres hb]
    rfl

end Sys2Proof.Machine
end

section
/-! `SUB` (R83 to R91), on the rules of the adder. The values first: level F is the machine's subtraction of words. Then
the two iteration counts: adding 1 to `~b` ripples through the trailing ones of `~b` (R89), and the second pass is bounded
by the trailing zeros that `b` and its negation share. Last the steps of `SUB` and the command as a whole. -/

namespace Sys2Proof.Machine

/-! The difference (R83, R90, R91) -/

/-- Level F of `SUB` is the machine's subtraction of words (R83). -/
theorem fSub_eq (a b : Word) : fSub a b = .ok (a - b) := by
  simp [fSub, Int.sub_eq_add_neg, BitVec.ofInt_add, BitVec.ofInt_neg, BitVec.sub_eq_add_neg]

/-- The difference of the unsigned readings has the same bits (R91). -/
theorem ofInt_toNat_sub (a b : Word) : BitVec.ofInt 32 (a.toNat - b.toNat) = a - b := by
  simp [Int.sub_eq_add_neg, BitVec.ofInt_add, BitVec.ofInt_neg, BitVec.sub_eq_add_neg]

/-- LAB07's negation, `(~b) + 1` (R84, R88). -/
theorem not_add_one (b : Word) : ~~~b + 1 = -b := (BitVec.neg_eq_not_add b).symm

/-- The signed reading of the difference (R83). -/
theorem toInt_sub_wrap (a b : Word) :
    (a - b).toInt =
      if a.toInt - b.toInt > 2 ^ 31 - 1 then a.toInt - b.toInt - 2 ^ 32
      else if a.toInt - b.toInt < -(2 ^ 31) then a.toInt - b.toInt + 2 ^ 32
      else a.toInt - b.toInt := by
  have ha := BitVec.le_toInt a
  have hb := BitVec.le_toInt b
  have ha' := BitVec.toInt_lt (x := a)
  have hb' := BitVec.toInt_lt (x := b)
  rw [BitVec.toInt_sub]
  exact bmod_eq_wrap_once (by omega) (by omega)

/-- Adding `MIN_INT32` flips bit 31 and no other: its one carry is lost (R90). -/
theorem add_minInt32 (x : Word) : x + minInt32 = x ^^^ minInt32 := by
  have hlow : LowZero 31 minInt32 := by unfold LowZero; decide
  have hlost : (adderIter x minInt32).2 = 0 := hlow.adderIter.eq_zero le_rfl
  rw [← adderIter_sum, hlost, adderIter_fst]
  exact BitVec.add_zero _

theorem fSub_zero_right (x : Word) : fSub x 0 = .ok x := by simp [fSub_eq]

theorem fSub_self (x : Word) : fSub x x = .ok 0 := by simp [fSub_eq]

theorem fSub_minInt32 (x : Word) : fSub x minInt32 = .ok (x ^^^ minInt32) := by
  have hneg : -minInt32 = minInt32 := by decide
  rw [fSub_eq, BitVec.sub_eq_add_neg, hneg, add_minInt32]

/-- Settles O49: the laws of the subtraction of words, by `fSub_eq`. -/
theorem subLaws : Obligations.SubLaws := by
  refine ⟨fun a b => ⟨fSub_zero_right a, fSub_self a, ?_⟩, fun a b d hd => ?_, fun a b d hd => ?_⟩
  · rw [fSub_eq, ofInt_toNat_sub]
  · rw [fSub_eq, CmdOutcome.ok.injEq] at hd
    rw [fAdd_eq, ← hd, BitVec.sub_add_cancel]
  · rw [fSub_eq, CmdOutcome.ok.injEq] at hd
    rw [fSub_eq, ← hd, BitVec.neg_sub, BitVec.add_comm, ← BitVec.sub_eq_add_neg]

/-- Settles O50: the rows with a variable by the laws of the difference, the others by evaluation. -/
theorem subCornerCases : Obligations.SubCornerCases :=
  ⟨fun x => ⟨fSub_zero_right x, fSub_self x, by simp [fSub_eq]⟩, by decide, fSub_minInt32, by decide⟩

/-! The count of the first pass (R89) -/

theorem twoPow_ne_zero {k : Nat} (hk : k < 32) : BitVec.twoPow 32 k ≠ 0 := fun h => by
  have hbit := BitVec.getLsbD_twoPow (w := 32) k k
  rw [h, decide_eq_true hk] at hbit
  simp at hbit

/-- One iteration on a carry mask with a single bit: the carry moves up where `x` has a 1, and ends where `x` has a 0. -/
theorem adderItersUpTo_twoPow_succ (f : Nat) {k : Nat} (hk : k < 32) (x : Word) :
    adderItersUpTo (f + 1) x (BitVec.twoPow 32 k) =
      adderItersUpTo f (x ^^^ BitVec.twoPow 32 k) (if x.getLsbD k then BitVec.twoPow 32 (k + 1) else 0) + 1 := by
  have hcarry : (adderIter x (BitVec.twoPow 32 k)).2 = if x.getLsbD k then BitVec.twoPow 32 (k + 1) else 0 := by
    rw [adderIter_snd, BitVec.and_twoPow]
    split
    · exact (BitVec.shiftLeft_add 1#32 k 1).symm
    · simp
  rw [adderItersUpTo_of_ne f x (twoPow_ne_zero hk), hcarry, adderIter_fst]

/-- A carry that enters at bit `k` ripples through the `n` ones of `x` that begin there: `n` iterations that move it up,
and the last, which writes it into the 0 above them. -/
theorem adderItersUpTo_twoPow (n : Nat) {f k : Nat} {x : Word} (hf : n < f) (hk : k + n < 32)
    (hones : ∀ i, i < n → x.getLsbD (k + i) = true) (hzero : x.getLsbD (k + n) = false) :
    adderItersUpTo f x (BitVec.twoPow 32 k) = n + 1 := by
  induction n generalizing f k x with
  | zero =>
    obtain ⟨f, rfl⟩ := Nat.exists_eq_add_one.2 hf
    rw [adderItersUpTo_twoPow_succ f (by omega), if_neg (by simpa using hzero)]
    simp
  | succ n ih =>
    obtain ⟨f, rfl⟩ := Nat.exists_eq_add_one.2 (Nat.zero_lt_of_lt hf)
    have hkeep (i : Nat) : (x ^^^ BitVec.twoPow 32 k).getLsbD (k + 1 + i) = x.getLsbD (k + (i + 1)) := by
      simp [BitVec.getLsbD_twoPow, Nat.add_assoc, Nat.add_comm 1 i]
    have hone : x.getLsbD k = true := hones 0 (by omega)
    rw [adderItersUpTo_twoPow_succ f (by omega), if_pos hone, ih (by omega) (by omega)
      (fun i hi => (hkeep i).trans (hones (i + 1) (by omega))) ((hkeep n).trans hzero)]

/-- Bit `tz v` of a `v` that is not 0 is its lowest 1 (R9). -/
theorem getLsbD_tz {v : Word} (h : v ≠ 0) : v.getLsbD (tz v) = true := by
  have hlt := tz_lt_of_ne_zero h
  by_contra hbit
  have hlow : LowZero (tz v + 1) v := fun i hi => by
    rcases Nat.lt_succ_iff_lt_or_eq.1 hi with hi | rfl
    · exact lowZero_tz v i hi
    · simpa using hbit
  have := hlow.le_tz hlt
  omega

/-- The first pass of `SUB` ripples through the trailing ones of `~b`, which are the trailing zeros of `b` (R89). -/
theorem adderIters_not_one {b : Word} (hb : b ≠ 0) (hb1 : b ≠ 0xFFFFFFFF#32) : adderIters (~~~b) 1 = tz b + 1 := by
  have hlt := tz_lt_of_ne_zero hb
  have hnb : ~~~b ≠ 0 := fun h => hb1 (BitVec.not_eq_comm.1 h)
  have hbit (i : Nat) (hi : i < 32) : (~~~b).getLsbD i = !b.getLsbD i := by simp [hi]
  rw [adderIters, adderLoad_of_ne hnb (by decide)]
  refine adderItersUpTo_twoPow (k := 0) (tz b) (by omega) (by omega) (fun i hi => ?_) ?_
  · rw [Nat.zero_add, hbit i (by omega), lowZero_tz b i hi]
    rfl
  · rw [Nat.zero_add, hbit _ hlt, getLsbD_tz hb]
    rfl

/-! The count of the second pass (R89) -/

theorem LowZero.neg {k : Nat} {v : Word} (h : LowZero k v) : LowZero k (-v) := by
  intro i hi
  have hbelow : ¬∃ j < i, v.getLsbD j = true := by
    rintro ⟨j, hj, hbit⟩
    simp [h j (by omega)] at hbit
  rw [BitVec.getLsbD_neg, h i hi, decide_eq_false hbelow, Bool.and_false]
  rfl

theorem adderIters_neg_le (a b : Word) : adderIters a (-b) ≤ 32 - tz b := by
  rcases adderLoad_cases a (-b) with ⟨hl, -⟩ | ⟨hl, -, -⟩
  · simp [adderIters, hl]
  · rw [adderIters, hl]
    exact adderItersUpTo_le 33 a (-b) (lowZero_tz b).neg

theorem adderIters_neg_eq_zero_iff {a b : Word} : adderIters a (-b) = 0 ↔ b = 0 ∨ a = 0 := by
  rw [adderIters_eq_zero_iff, or_comm]
  exact or_congr_left BitVec.neg_eq_zero_iff

/-- The two passes together: the trailing zeros of `b` that the first ripples through are those the second is spared
(R89). -/
theorem sub_iters_le (a b : Word) : adderIters (~~~b) 1 + adderIters a (-b) ≤ 33 := by
  have h2 := adderIters_neg_le a b
  by_cases hb : b = 0
  · subst hb
    rw [adderIters_neg_eq_zero_iff.2 (.inl rfl)]
    decide
  by_cases hb1 : b = 0xFFFFFFFF#32
  · rw [adderIters_of_zero (x := ~~~b) (.inl (by rw [hb1]; rfl))]
    omega
  · have := tz_lt_of_ne_zero hb
    rw [adderIters_not_one hb hb1]
    omega

/-- Settles O47: the first count by the ripple, the second by the low zeros that a negation keeps, and the machine's count
is the one every command has. -/
theorem subStepCount : Obligations.SubStepCount := by
  intro a b
  have hsum := sub_iters_le a b
  have hsteps : subSteps a b = adderIters (~~~b) 1 + adderIters a (-b) + 3 := rfl
  refine ⟨?_, ?_, fun hb1 hb => adderIters_not_one hb hb1, adderIters_neg_eq_zero_iff.2,
    fun hb ha => ⟨?_, adderIters_neg_le a b⟩, hsum, by omega, by omega, fun _ => requested_command_isDone⟩
  · rintro rfl
    exact adderIters_of_zero (.inl rfl)
  · rintro rfl
    decide
  · exact Nat.one_le_iff_ne_zero.2 fun h => (adderIters_neg_eq_zero_iff.1 h).elim hb ha

/-! The steps of `SUB` (R84, R85) -/

/-- Settles O44: the accepting step loads `(~b, 1)`, or `(1, 0)` by the first test of `AdderLoad`. -/
theorem subAcceptLoadsTheComplement : Obligations.SubAcceptLoadsTheComplement := by
  intro a b s _
  refine ⟨subAccept a b (dropOutcome s), (dropOutcome s).res, rfl, rfl, rfl, fun hb => ?_, ?_⟩
  · have hnb : ~~~b ≠ 0 := fun h => hb (BitVec.not_eq_comm.1 h)
    rw [subAccept, adderLoad_of_ne hnb (by decide)]
    rfl
  · rintro rfl
    rfl

/-- Settles O45: the hand-over by the cases of `AdderLoad` on `SA` and the old `XA`, or `step_iterate`. -/
theorem subNegStepHandsOver : Obligations.SubNegStepHandsOver := by
  intro s hp hr
  rw [step_eq_stepAt]
  have ha : s.phase.adding = true := adding_iff.2 (.inr (.inl hp))
  by_cases hx : s.xb = 0
  · have hregs : (hostMove (workStep s)).regs = { s.regs with
        phase := .subRun, xa := (adderLoad s.sa s.xa).1, xb := (adderLoad s.sa s.xa).2 } := by
      rw [hostMove_regs, workStep_handOver hp hx]
      rfl
    refine ⟨_, step_busy (busy_of_adding ha) hr, fun _ hxa => ?_, fun _ hxa hsa => ?_, fun _ hxa hsa => ?_, absurd hx⟩
    · rw [hregs, hxa, adderLoad_of_zero_right]
    · rw [hregs, hsa, adderLoad_of_zero_left hxa]
    · rw [hregs, adderLoad_of_ne hsa hxa]
  · refine ⟨_, step_iterate ha hr hx, fun h => absurd h hx, fun h => absurd h hx, fun h => absurd h hx, fun _ => ?_⟩
    rw [hostMove_regs]
    rfl

/-! The command `SUB` (R83, R88) -/

/-- Settles O46: the adder's loop from the pair `(~b, 1)` leaves their sum `-b`, and the hand-over loads a pair whose sum
is `a + -b`. -/
theorem subFirstPassNegates : Obligations.SubFirstPassNegates := by
  intro a b s _ hr
  have hsum : (adderLoad (~~~b) 1).1 + (adderLoad (~~~b) 1).2 = -b := by rw [adderLoad_sum, not_add_one]
  obtain ⟨u, hu, hur⟩ := BusyRun.adderLoop (s := subAccept a b (dropOutcome s)) rfl hr
  obtain ⟨v, hv, hvr⟩ := BusyRun.firstPass (s := subAccept a b (dropOutcome s)) rfl hr
  have hvxa : v.xa = (adderLoad a (-b)).1 := hsum ▸ congrArg BlockRegs.xa hvr
  have hvxb : v.xb = (adderLoad a (-b)).2 := hsum ▸ congrArg BlockRegs.xb hvr
  rw [run_eq_runAt]
  refine ⟨_, u, v, rfl, hu.run, congrArg BlockRegs.phase hur, congrArg BlockRegs.xb hur,
    (congrArg BlockRegs.xa hur).trans hsum, congrArg BlockRegs.sa hur, hv.run, congrArg BlockRegs.phase hvr, ?_⟩
  rw [hvxa, hvxb, adderLoad_sum, BitVec.sub_eq_add_neg]

/-- Settles O48: `sub_completes` from the state that the accepting step leaves, with the signed reading of the
difference. -/
theorem subCommandCompletes : Obligations.SubCommandCompletes := by
  intro a b s _ hr
  obtain ⟨u, hu, hregs⟩ := sub_completes a b (s := s) rfl hr
  have hxa : u.xa = a - b := congrArg BlockRegs.xa hregs
  have hxb : u.xb = 0 := congrArg BlockRegs.xb hregs
  have hp : u.phase = .done := congrArg BlockRegs.phase hregs
  have he : u.err = false := congrArg BlockRegs.err hregs
  have hres : u.res = a - b := congrArg BlockRegs.res hregs
  rw [run_eq_runAt]
  refine ⟨rfl, fun v hv => ?_, subAccept a b (dropOutcome s), u, rfl, hu.run, ?_, ?_, toInt_sub_wrap a b⟩
  · rw [fAdd_eq, CmdOutcome.ok.injEq, not_add_one] at hv
    rw [fAdd_eq, fSub_eq, ← hv, BitVec.sub_eq_add_neg]
  · rw [hregs, hxa, hxb]
  · simp [State.outcome_of_done u hp, he, hres]

end Sys2Proof.Machine
end

section
/-! The one error, `DivisionByZero` (R92 to R99): where it is raised and what that writes, what outranks it, that it
leaves no trace, and that no other command fails. -/

namespace Sys2Proof.Machine

variable {w : Nat}

/-! Raising it (R93 to R95) -/

/-- The zero-divisor test comes first, so the error is raised for every dividend, 0 included (R94, R95). -/
theorem exec_div_zero (a : Word) (s : State w) :
    execAt (.div a 0) s = .next (raiseDivisionByZero (dropOutcome s)) := by
  rw [execAt, execDiv, divAccept, if_pos rfl]

theorem raiseDivisionByZero_outcome (s : State w) : (raiseDivisionByZero s).outcome = some .divisionByZero := rfl

/-- Settles O18: of the two writes of `DIV a, 0`, dropping the previous outcome and raising, the second overrides the
first at `ERR`. -/
theorem divisionByZeroEntry : Obligations.DivisionByZeroEntry := by
  intro a s _
  rw [exec_eq_execAt]
  exact ⟨_, _, exec_div_zero a s, rfl, rfl, rfl, rfl, rfl, rfl, rfl⟩

/-- Settles O15: a reset step reads nothing but `rst`, and `DIV a, 0` raises the error for every `a`. -/
theorem resetOutranksAndZeroDivisorComesFirst : Obligations.ResetOutranksAndZeroDivisorComesFirst := by
  rw [Obligations.ResetOutranksAndZeroDivisorComesFirst, step_eq_stepAt, exec_eq_execAt]
  refine ⟨fun s p hr => ⟨_, step_reset hr, ?_, ?_⟩, fun s a _ => ⟨_, exec_div_zero a s, raiseDivisionByZero_outcome _⟩⟩
  · rw [hostMove_phase, resetAction_phase]
  · rw [hostMove_err, resetAction_err]

/-! Holding and dropping it (R99) -/

/-- The triple of a command tells whether it is a `DIV` with divisor 0 (R47, R92). -/
theorem toCommand_div_zero_iff {i : Instr} : i.toCommand.op = opDiv ∧ i.toCommand.b = 0 ↔ ∃ a, i = .div a 0 := by
  cases i <;> simp [Instr.toCommand, opAdd, opDiv, opSub]

/-- An accepting step does not depend on the `ERR` it drops (R22, R99). -/
theorem step_request_with_err {i : Instr} {s : State w} (e : Bool) (hf : s.free = true) (h : Requests i s) :
    stepAt { s with err := e } = stepAt s := by
  rw [step_request hf h, step_request (s := { s with err := e }) hf h, exec_with_err]

/-- The error flag after the request of a command (R24, R92). -/
theorem step_request_err_iff {i : Instr} {s t : State w} (hf : s.free = true) (hq : Requests i s)
    (h : stepAt s = .next t) : t.err = true ↔ ∃ a, i = .div a 0 := by
  obtain ⟨u, hu, -⟩ := exec_next i s
  rw [step_request hf hq, hu] at h
  cases h
  rw [hostMove_err, exec_err_iff hu, toCommand_div_zero_iff]

/-- Settles O19: a step without request holds the registers, an accepting step and reset write `ERR` without reading
it. -/
theorem errorLeavesNoTrace : Obligations.ErrorLeavesNoTrace := by
  intro s hp he
  have hf : s.free = true := (State.free_iff s).2 (.inr hp)
  rw [step_eq_stepAt]
  refine ⟨fun hr hs => ⟨_, step_hold hf hr hs, ?_, ?_⟩, fun i hq => ⟨?_, fun t => step_request_err_iff hf hq⟩,
    fun hr => ⟨_, step_reset hr, ?_, ?_⟩⟩
  · rw [State.isDone_iff, hostMove_phase, hp]
  · rw [hostMove_err, he]
  · exact (step_request_with_err false hf hq).symm
  · rw [State.isDone, hostMove_phase, resetAction_phase]
    rfl
  · rw [hostMove_err, resetAction_err]

/-! Nothing else fails (R96) -/

theorem fDiv_eq_divisionByZero_iff {a b : Word} : fDiv a b = .divisionByZero ↔ b = 0 := by simp [fDiv]

/-- At level F the one failure is `DIV` with divisor 0 (R92, R96). -/
theorem levelF_eq_divisionByZero_iff {i : Instr} : levelF i = .divisionByZero ↔ ∃ a, i = .div a 0 := by
  cases i with
  | add a b => simp [levelF, fAdd]
  | sub a b => simp [levelF, fSub]
  | div a b => simp [levelF, fDiv_eq_divisionByZero_iff]

/-- An outcome is a number or the one error (R11, R92). -/
theorem exists_eq_ok_iff {o : CmdOutcome} : (∃ v, o = .ok v) ↔ o ≠ .divisionByZero := by cases o <;> simp

/-- A value may be used as `result` exactly when it is the outcome (R28, R97). -/
theorem State.result?_eq_some_iff {s : State w} {v : Word} : s.result? = some v ↔ s.outcome = some (.ok v) := by
  cases hd : s.isDone <;> cases he : s.err <;> simp [State.result?, State.resultSpecified, State.outcome, hd, he]

/-- Every command keeps its own bound (R63, R78, R89, R116). -/
theorem stepCount_le_stepBound (i : Instr) : stepCount i ≤ stepBound i := by
  cases i with
  | add a b =>
    have := adderIters_le_tz a b
    simp only [stepCount, stepBound, addSteps]
    omega
  | div a b => exact divSteps_le a b
  | sub a b =>
    have := sub_iters_le a b
    simp only [stepCount, stepBound, subSteps]
    omega

theorem stepBound_le (i : Instr) : stepBound i ≤ 530 := by cases i <;> simp [stepBound]

/-- Settles O57: the command ends with the outcome of level F, which is a number unless it is a `DIV` with divisor 0. -/
theorem onlyDivisionByZeroFails : Obligations.OnlyDivisionByZeroFails := by
  intro i
  refine ⟨levelF_eq_divisionByZero_iff, fun s hf hq hr => ?_⟩
  obtain ⟨-, t, ht, -, hp, ho⟩ := requested_command_completes (by decide) hf hq hr
  refine ⟨t, (stepCount_le_stepBound i).trans (stepBound_le i), by rw [run_eq_runAt, ht], (State.isDone_iff t).2 hp, ?_⟩
  simp only [State.result?_eq_some_iff, ho, Option.some.injEq, exists_eq_ok_iff, ne_eq,
    levelF_eq_divisionByZero_iff]

end Sys2Proof.Machine
end

section
/-! Reset, the handshake and the course of every command (R106 to R117): what the host drives is kept by every step, so a
promise of the host that holds now holds along every run; a busy block reads its registers alone, and it finishes within
the bounds of the adder's and the divider's loops. -/

namespace Sys2Proof.Machine

variable {w : Nat}

/-! The refinement of level F (R116) -/

/-- In `DONE` the flag tells the two kinds of outcome apart (R16, R24). -/
theorem State.err_iff_of_done {s : State w} (hp : s.phase = .done) :
    s.err = true ↔ s.outcome = some .divisionByZero := by
  rw [State.outcome_of_done s hp]
  cases s.err <;> simp

/-- Settles O53: `requested_command_completes`, read on the ports, with the bound of each command's own count. -/
theorem everyCommandEndsWithItsOutcome : Obligations.EveryCommandEndsWithItsOutcome := by
  intro i
  refine ⟨stepCount_pos i, stepCount_le_stepBound i, fun s hf hq hr => ?_⟩
  rw [run_eq_runAt]
  obtain ⟨hbusy, t, ht, -, hp, ho⟩ := requested_command_completes (by decide) hf hq hr
  refine ⟨fun k h1 hk => ?_, t, ht, ?_, (State.isDone_iff t).2 hp, ho, ?_⟩
  · obtain ⟨u, hu, hb, he⟩ := hbusy k h1 hk
    exact ⟨u, hu, hb, State.isDone_of_busy hb, he⟩
  · rw [State.busy, hp]
    rfl
  · rw [State.err_iff_of_done hp, ho, Option.some.injEq]

/-! A busy block finishes (R117) -/

/-- The adder's loop runs at most 32 times, on any pair (R62). -/
theorem adderItersUpTo_le_width (f : Nat) (x y : Word) : adderItersUpTo f x y ≤ 32 :=
  adderItersUpTo_le f x y (LowZero.zero y)

/-- The last adder pass ends the command, from any pair (R60, R86). -/
theorem BusyRun.lastPass_done {s : State w} (hp : s.phase = .addRun ∨ s.phase = .subRun) (hr : ResetLow s) :
    ∃ n t, n ≤ 33 ∧ BusyRun n s t ∧ t.phase = .done := by
  obtain ⟨t, ht, hregs⟩ := BusyRun.lastPass hp hr
  exact ⟨_, t, Nat.succ_le_succ (adderItersUpTo_le_width 33 s.xa s.xb), ht, congrArg BlockRegs.phase hregs⟩

/-- Both passes of `SUB` end the command, from any pair (R85, R86). -/
theorem BusyRun.bothPasses_done {s : State w} (hp : s.phase = .subNeg) (hr : ResetLow s) :
    ∃ n t, n ≤ 66 ∧ BusyRun n s t ∧ t.phase = .done := by
  obtain ⟨t, ht, hregs⟩ := BusyRun.firstPass hp hr
  obtain ⟨n, u, hn, hu, hup⟩ := BusyRun.lastPass_done (.inr (congrArg BlockRegs.phase hregs)) ht.resetLow
  have hle := adderItersUpTo_le_width 33 s.xa s.xb
  exact ⟨_, u, by omega, ht.trans hu, hup⟩

/-- The step in `DIV_FIN` ends the command (R73). -/
theorem BusyRun.divFin_done {s : State w} (hp : s.phase = .divFin) (hr : ResetLow s) :
    ∃ t, BusyRun 1 s t ∧ t.phase = .done :=
  ⟨_, .single (by rw [State.busy, hp]; rfl) hr, by rw [hostMove_phase, workStep, hp]; rfl⟩

/-- A loop of the datapath that reaches `DIV_FIN` is a stretch of busy steps that ends the command one step later. -/
theorem Loops.busyRun_done {n : Nat} {s : State w} {e : DivRegs w} (h : Loops n (s.phase, s.div) (.divFin, e))
    (hr : ResetLow s) : ∃ t, BusyRun (n + 1) s t ∧ t.phase = .done := by
  obtain ⟨⟨t, ht, hregs, htr⟩, hj⟩ := h.run s rfl hr
  have hloop : BusyRun n s t := by
    refine ⟨ht, fun k hk => ?_, congrArg BlockRegs.err hregs, htr⟩
    obtain ⟨u, hu, hup, hue⟩ := hj k hk
    exact ⟨u, hu, by rcases hup with h | h <;> rw [State.busy, h] <;> rfl, hue⟩
  obtain ⟨u, hu, hup⟩ := BusyRun.divFin_done (congrArg BlockRegs.phase hregs) htr
  exact ⟨u, hloop.trans hu, hup⟩

/-- What is left of the dividend has a quotient of at most `2^31` (R76). -/
theorem OuterNat.div_le {d : DivRegs w} {B quo rem : Nat} (h : OuterNat d B quo rem) : rem / B ≤ 2 ^ 31 :=
  (Nat.div_le_self rem B).trans ((Nat.le_add_left _ _).trans h.bound)

/-- From within a round, with `k` shifts done, no more steps are left than from the start of that round (R78): the shifts
up to the top bit of `q`, the subtraction, and then the rounds of the bits below it. -/
theorem shift_loop_to_divFin (hw : 34 ≤ w) {d : DivRegs w} {B quo rem k q : Nat} (h : ShiftNat d B quo rem k)
    (hq : q = rem / B) : ∃ n e, n ≤ roundSteps q 32 + 1 ∧ Loops n (.divShift, d) (.divFin, e) := by
  have hkq : 2 ^ k ≤ q := hq ▸ (Nat.le_div_iff_mul_le h.pos).2 (mul_comm B _ ▸ h.le)
  have hq0 : q ≠ 0 := Nat.ne_of_gt ((Nat.two_pow_pos k).trans_le hkq)
  obtain ⟨m, hm⟩ : ∃ m, q.log2 = k + m := Nat.exists_eq_add_of_le ((Nat.le_log2 hq0).2 hkq)
  have hlo : 2 ^ (k + m) ≤ q := hm ▸ Nat.log2_self_le hq0
  have hhi : q < 2 ^ (k + m + 1) := hm ▸ Nat.lt_log2_self
  have hq31 : q ≤ 2 ^ 31 := hq ▸ h.toOuterNat.div_le
  have hlt : k + m < 32 := (Nat.pow_lt_pow_iff_right (by decide)).1 (by omega : 2 ^ (k + m) < 2 ^ 32)
  obtain ⟨e, hround, -, he⟩ := shift_loop hw m h
    (by rw [mul_comm]; exact (Nat.le_div_iff_mul_le h.pos).1 (hq ▸ hlo))
    (by rw [mul_comm]; exact (Nat.div_lt_iff_lt_mul h.pos).1 (hq ▸ hhi))
  have hrest : q - 2 ^ (k + m) = (rem - B * 2 ^ (k + m)) / B := by rw [hq, Nat.sub_mul_div]
  obtain ⟨e', hrounds, -, -⟩ := outer_loop hw _ he hrest
  have hsteps := roundSteps_add (k + m) 32 (q - 2 ^ (k + m)) (by rw [pow_succ] at hhi; omega) hlt
  rw [Nat.add_sub_cancel' hlo] at hsteps
  exact ⟨_, e', by omega, hround.trans hrounds⟩

/-- A busy block that meets the invariant reaches `DONE` within 529 steps (R78, R117). -/
theorem BlockInv.busyRun_done (hw : 34 ≤ w) {s : State w} (h : BlockInv s) (hb : s.busy = true) (hr : ResetLow s) :
    ∃ n t, n ≤ 529 ∧ BusyRun n s t ∧ t.phase = .done := by
  cases hp : s.phase with
  | idle | done => simp [State.busy, hp, Phase.working] at hb
  | addRun | subRun =>
    obtain ⟨n, t, hn, ht⟩ := BusyRun.lastPass_done (by simp [hp]) hr
    exact ⟨n, t, by omega, ht⟩
  | subNeg =>
    obtain ⟨n, t, hn, ht⟩ := BusyRun.bothPasses_done hp hr
    exact ⟨n, t, by omega, ht⟩
  | divOuter =>
    have ho := (h.divBounded (.inl hp)).outerNat
    obtain ⟨e, hl, -, -⟩ := outer_loop hw _ ho rfl
    obtain ⟨t, ht⟩ := Loops.busyRun_done (hp ▸ hl) hr
    have := roundSteps_bound ho.div_le
    exact ⟨_, t, by omega, ht⟩
  | divShift =>
    obtain ⟨-, k, -, -, hs⟩ := h.shiftNat hp
    obtain ⟨n, e, hn, hl⟩ := shift_loop_to_divFin hw hs rfl
    obtain ⟨t, ht⟩ := Loops.busyRun_done (hp ▸ hl) hr
    have := roundSteps_bound hs.toOuterNat.div_le
    exact ⟨_, t, by omega, ht⟩
  | divFin =>
    obtain ⟨t, ht⟩ := BusyRun.divFin_done hp hr
    exact ⟨1, t, by omega, ht⟩

/-- Settles O55: by the phase, from any pair of the adder and any registers of the divider that meet the invariant. -/
theorem everyBusyBlockFinishes : Obligations.EveryBusyBlockFinishes := by
  intro s h hb hr
  rw [run_eq_runAt]
  obtain ⟨n, t, hn, ht, hp⟩ := h.busyRun_done (by decide) hb hr
  exact ⟨n, t, hn, ht.run, (State.isDone_iff t).2 hp⟩

/-! What the host drives, along a run (R14, R115) -/

/-- Every value the host has on the ports, now and later, has the property `P`. `ResetLow`, `StartLow` and `NeverReserved`
are of this form. -/
def HostAll (P : PortIn → Prop) (s : State w) : Prop := P s.ports ∧ ∀ p ∈ s.host, P p

/-- A step of the block leaves the host's side to the host's move. -/
theorem step_eq_hostMove {s t : State w} (h : stepAt s = .next t) :
    ∃ u, t = hostMove u ∧ u.ports = s.ports ∧ u.host = s.host := by
  rcases step_cases h with ⟨-, rfl⟩ | ⟨-, -, -, rfl⟩ | ⟨-, -, rfl⟩ | ⟨i, u, -, -, hu, rfl⟩
  · exact ⟨resetAction s, rfl, rfl, rfl⟩
  · exact ⟨s, rfl, rfl, rfl⟩
  · exact ⟨workStep s, rfl, workStep_ports s, workStep_host s⟩
  · obtain ⟨v, hv, hports, hhost⟩ := exec_next i s
    cases hv.symm.trans hu
    exact ⟨u, rfl, hports, hhost⟩

theorem HostAll.step {P : PortIn → Prop} {s t : State w} (h : HostAll P s) (hs : stepAt s = .next t) : HostAll P t := by
  obtain ⟨u, rfl, hports, hhost⟩ := step_eq_hostMove hs
  exact hostMove_forall P u (by rw [hports, hhost]; exact h)

theorem HostAll.run {P : PortIn → Prop} {n : Nat} {s t : State w} (h : HostAll P s) (hr : runAt n s = .next t) :
    HostAll P t := by
  induction n generalizing s with
  | zero =>
    cases hr
    exact h
  | succ n ih =>
    cases hs : stepAt s with
    | next u =>
      rw [run_succ_of_step hs] at hr
      exact ih (h.step hs) hr
    | fault r => cases r
    | refused r => simp [runAt, hs] at hr

/-- What every stretch of `N` steps leads to again, every number of such stretches leads to. -/
theorem exists_run_mul_of_kept {P : State w → Prop} {N : Nat} (hkept : ∀ s, P s → ∃ t, runAt N s = .next t ∧ P t)
    (m : Nat) {s : State w} (h : P s) : ∃ t, runAt (m * N) s = .next t ∧ P t := by
  induction m with
  | zero => exact ⟨s, by rw [Nat.zero_mul, run_zero], h⟩
  | succ m ih =>
    obtain ⟨t, ht, hPt⟩ := ih
    obtain ⟨u, hu, hPu⟩ := hkept t hPt
    exact ⟨u, by rw [Nat.succ_mul, run_add N ht, hu], hPu⟩

/-- A property from which every step has a successor and that it keeps holds after any number of steps. -/
theorem exists_run_of_kept {P : State w → Prop} (hkept : ∀ s, P s → ∃ t, stepAt s = .next t ∧ P t) (n : Nat)
    {s : State w} (h : P s) : ∃ t, runAt n s = .next t ∧ P t := by
  have hone (u : State w) (hu : P u) : ∃ t, runAt 1 u = .next t ∧ P t := by
    obtain ⟨t, ht, hPt⟩ := hkept u hu
    exact ⟨t, run_succ_of_step ht, hPt⟩
  simpa using exists_run_mul_of_kept hone n h

/-- Settles O8: the one refusal needs `0b11` on `op`, and no step changes what the host drives. -/
theorem legalHostIsNeverStopped : Obligations.LegalHostIsNeverStopped := by
  intro s h n
  rw [run_eq_runAt]
  refine exists_run_of_kept (fun u hu => ?_) n h
  obtain ⟨t, ht⟩ := exists_step_next (s := u) fun hacc => hu.1 hacc.2
  exact ⟨t, ht, HostAll.step (P := fun p => p.op ≠ 0b11#2) hu ht⟩

/-! Reset (R106, R107) -/

/-- The state after a reset step (R106). -/
theorem hostMove_resetAction_phase (s : State w) : (hostMove (resetAction s)).phase = .idle := by simp

/-- The block is in `IDLE`, and the host requests nothing from now on unless it resets the block in the same step. -/
def IdleUnrequested (s : State w) : Prop :=
  s.phase = .idle ∧ HostAll (fun p => p.rst = true ∨ p.start = false) s

/-- A block in `IDLE` stays there while the host resets it or requests nothing (R23, R106). -/
theorem IdleUnrequested.step {s : State w} (h : IdleUnrequested s) : ∃ t, stepAt s = .next t ∧ IdleUnrequested t := by
  obtain ⟨hp, hhost⟩ := h
  have stays {t : State w} (hs : stepAt s = .next t) (htp : t.phase = .idle) :
      ∃ t, stepAt s = .next t ∧ IdleUnrequested t := ⟨t, hs, htp, hhost.step hs⟩
  cases hr : s.ports.rst with
  | true => exact stays (step_reset hr) (hostMove_resetAction_phase s)
  | false =>
    have hs : s.ports.start = false := by simpa [hr] using hhost.1
    exact stays (step_hold ((State.free_iff s).2 (.inl hp)) hr hs) (by rw [hostMove_phase, hp])

/-- Settles O14: the reset step leads to `IDLE`, and every later step finds `rst` at 1 or `start` at 0. -/
theorem resetAbandonsTheCommand : Obligations.ResetAbandonsTheCommand := by
  intro s _ hr hhost n
  have hs := step_reset hr
  have hquiet : HostAll (fun p => p.rst = true ∨ p.start = false) s := ⟨.inl hr, fun p hp => .inr (hhost p hp)⟩
  obtain ⟨t, ht, hp, -⟩ :=
    exists_run_of_kept (fun _ => IdleUnrequested.step) n ⟨hostMove_resetAction_phase s, hquiet.step hs⟩
  have hd : t.phase ≠ .done := by simp [hp]
  refine ⟨t, by rw [run_eq_runAt, run_succ_of_step hs, ht], hp, ?_, State.outcome_of_not_done t hd⟩
  simp [State.isDone, hp]

/-- Settles O12: reset writes `PHASE` and `ERR`, and a block in `IDLE` accepts what is requested. -/
theorem resetStepClearsTheBlock : Obligations.ResetStepClearsTheBlock := by
  intro s hr
  rw [step_eq_stepAt, exec_eq_execAt]
  have hp := hostMove_resetAction_phase s
  have hd : (hostMove (resetAction s)).phase ≠ .done := by simp
  refine ⟨_, step_reset hr, hp, by simp, ?_, ?_, result?_of_not_done hd, State.outcome_of_not_done _ hd,
    fun i hq => step_request ((State.free_iff _).2 (.inl hp)) hq⟩
  · rw [State.busy, hp]
    rfl
  · rw [State.isDone, hp]
    rfl

/-! A held start (R111) -/

/-- The host holds the request of command `i` on the ports, now and in every later step (R111). -/
def HoldsRequest (i : Instr) (s : State w) : Prop := Requests i s ∧ HostAll (· = s.ports) s

/-- A free block under a held request completes the command, and the request is still held. -/
theorem HoldsRequest.completes (hw : 34 ≤ w) {i : Instr} {s : State w} (hf : s.free = true) (h : HoldsRequest i s) :
    ∃ t, runAt (stepCount i) s = .next t ∧ t.phase = .done ∧ t.outcome = some (levelF i) ∧ HoldsRequest i t := by
  obtain ⟨hq, hheld⟩ := h
  have hr : ResetLow s := ⟨hq.1, fun p hp => by rw [hheld.2 p hp]; exact hq.1⟩
  obtain ⟨-, t, ht, -, hp, ho⟩ := requested_command_completes hw hf hq hr
  have hheld' := hheld.run ht
  have hports : t.ports = s.ports := hheld'.1
  exact ⟨t, ht, hp, ho, by rwa [Requests, hports], by rwa [hports]⟩

/-- Settles O56: every completed command leaves a free block under the same held request. -/
theorem heldStartRepeatsTheCommand : Obligations.HeldStartRepeatsTheCommand := by
  intro i s hf hq hhost m
  have hkept (u : State) (hu : u.free = true ∧ HoldsRequest i u) :
      ∃ t, runAt (stepCount i) u = .next t ∧ t.free = true ∧ HoldsRequest i t := by
    obtain ⟨t, ht, hp, -, hheld⟩ := hu.2.completes (by decide) hu.1
    exact ⟨t, ht, (State.free_iff t).2 (.inr hp), hheld⟩
  obtain ⟨u, hu, huf, huheld⟩ := exists_run_mul_of_kept hkept m ⟨hf, hq, rfl, hhost⟩
  obtain ⟨t, ht, hp, ho, hheld⟩ := huheld.completes (by decide) huf
  rw [run_eq_runAt, step_eq_stepAt, exec_eq_execAt]
  refine ⟨t, by rw [Nat.succ_mul, run_add _ hu, ht], (State.isDone_iff t).2 hp, ho, hheld.1, ?_⟩
  exact step_request ((State.free_iff t).2 (.inr hp)) hheld.1

/-! A working phase (R109) -/

/-- The work of a phase carries the ports along unread (R109). -/
theorem workStep_with_ports (s : State w) (p : PortIn) :
    workStep { s with ports := p } = { workStep s with ports := p } := by
  obtain ⟨phase⟩ := s
  cases phase with
  | addRun | subNeg | subRun => simp only [workStep, addRunStep, subNegStep, subRunStep]; split <;> rfl
  | idle | divOuter | divShift | divFin | done => rfl

/-- A busy step does the work of its phase on the registers, whatever the ports hold beside `rst` (R109). -/
theorem step_busy_with_ports {s : State w} {p : PortIn} (hb : s.busy = true) (hr : p.rst = false) :
    ∃ t, stepAt { s with ports := p } = .next t ∧
      t.regs = (workStep s).regs ∧ t.draws = (workStep s).draws ∧ t.host = s.host.tail := by
  refine ⟨_, step_busy (s := { s with ports := p }) hb hr, ?_, ?_, ?_⟩
  · rw [hostMove_regs, workStep_with_ports]
    rfl
  · rw [hostMove_draws, workStep_with_ports]
  · rw [hostMove_host, workStep_host]

/-- Settles O10: both steps do the work of the phase on the same registers. -/
theorem busyStepReadsNoRequest : Obligations.BusyStepReadsNoRequest := by
  intro s p q hb hp hq
  rw [step_eq_stepAt]
  obtain ⟨t, ht, htr, htd, hth⟩ := step_busy_with_ports hb hp
  obtain ⟨u, hu, hur, hud, huh⟩ := step_busy_with_ports hb hq
  exact ⟨t, u, ht, hu, htr.trans hur.symm, htd.trans hud.symm, hth.trans huh.symm⟩

end Sys2Proof.Machine
end
